-- ==== Sys2Proof/Word.lean ====
section
/-! DEFINITION. The value types of the engine (spec/00_scope.md R8, spec/10_state.md R10): bytes, 64-bit lane words,
32-bit halves, and the two fixed-size collections the spec indexes by a small range, four things (`Quad`) and eight
things (`Oct`). -/

namespace Sys2Proof

/-- A byte (`u8`), R8. -/
abbrev Byte := BitVec 8

/-- A 32-bit half of a lane (`u32`), R8 and R76. -/
abbrev Half := BitVec 32

/-- A 64-bit lane, key word, seed word or output word (`u64`), R8. -/
abbrev Word := BitVec 64

/-- Four things indexed 0..3 (R2: LANES, NSTATE, NOUT and SEED_WORDS are all 4). -/
@[ext] structure Quad (α : Type) where
  e0 : α
  e1 : α
  e2 : α
  e3 : α
deriving DecidableEq, Repr

/-- Element `i` of a quad. -/
def Quad.get {α : Type} (q : Quad α) (i : Fin 4) : α :=
  match i with
  | 0 => q.e0
  | 1 => q.e1
  | 2 => q.e2
  | 3 => q.e3

/-- The quad whose element `i` is `f i`: the spec's `for i in 0..3: r[i] <- ...`. -/
def Quad.ofFn {α : Type} (f : Fin 4 → α) : Quad α := ⟨f 0, f 1, f 2, f 3⟩

/-- The quad with element `i` replaced: the spec's `x[i] <- v`. -/
def Quad.set {α : Type} (q : Quad α) (i : Fin 4) (v : α) : Quad α :=
  match i with
  | 0 => { q with e0 := v }
  | 1 => { q with e1 := v }
  | 2 => { q with e2 := v }
  | 3 => { q with e3 := v }

/-- The elements in ascending order. -/
def Quad.toList {α : Type} (q : Quad α) : List α := [q.e0, q.e1, q.e2, q.e3]

/-- Eight things indexed 0..7 (R2: HALVES is 8; R4: a permutation table has eight entries). -/
@[ext] structure Oct (α : Type) where
  e0 : α
  e1 : α
  e2 : α
  e3 : α
  e4 : α
  e5 : α
  e6 : α
  e7 : α
deriving DecidableEq, Repr

/-- Element `e` of an oct. -/
def Oct.get {α : Type} (q : Oct α) (e : Fin 8) : α :=
  match e with
  | 0 => q.e0
  | 1 => q.e1
  | 2 => q.e2
  | 3 => q.e3
  | 4 => q.e4
  | 5 => q.e5
  | 6 => q.e6
  | 7 => q.e7

/-- The oct whose element `e` is `f e`. -/
def Oct.ofFn {α : Type} (f : Fin 8 → α) : Oct α := ⟨f 0, f 1, f 2, f 3, f 4, f 5, f 6, f 7⟩

/-- The elements in ascending order. -/
def Oct.toList {α : Type} (q : Oct α) : List α := [q.e0, q.e1, q.e2, q.e3, q.e4, q.e5, q.e6, q.e7]

/-- A vector: four 64-bit lanes, lane 0 first (R10, R70). -/
abbrev Vec := Quad Word

/-- The sixteen words of one block (R106): word `4*g + i` is element `i` of group `g`. -/
abbrev Words16 := Quad (Quad Word)

/-- A permutation table: eight entries of 3 bits (R4). -/
abbrev PermTable := Oct (Fin 8)

end Sys2Proof
end

