-- ==== Sys2Proof/Syntax.lean ====
section
/-! DEFINITION. The engine's operations, one constructor per row of spec/opcode_table.json: the six commands of the
command channel (spec/30_encoding.md R54) and the five requests of the vector-lane ALU (R59). -/

namespace Sys2Proof

/-- The table select of VPERM32 (R58): `tsel` 0 is PERM_A, 1 is PERM_B. -/
inductive TableSel where
  | permA
  | permB
deriving DecidableEq, Repr

/-- What the decoders read. A command carries its operands (R51 to R53, R55); an ALU request carries the control-word
fields its operation uses (R58, R59), its operands standing on the ALU port's buses. -/
inductive Instr where
  /-- SEED, opcode 0x01, four seed words (R53, R90). -/
  | seed (seed0 seed1 seed2 seed3 : Word)
  /-- RNDU, opcode 0x02 (R108). -/
  | rndu
  /-- RDB, opcode 0x03 (R111). -/
  | rdb
  /-- FILL, opcode 0x04, the number of bytes to produce (R52, R112). -/
  | fill (len : Word)
  /-- NXT32, opcode 0x05 (R117). -/
  | nxt32
  /-- NXT64, opcode 0x06 (R118). -/
  | nxt64
  /-- VADD, `aluop` 0 (R71). -/
  | vadd
  /-- VXOR, `aluop` 1 (R72). -/
  | vxor
  /-- VSRL, `aluop` 2, shift amount 0..63 (R73). -/
  | vsrl (shamt : BitVec 6)
  /-- VPERM32, `aluop` 3 (R78). -/
  | vperm32 (tsel : TableSel)
  /-- VSPLAT, `aluop` 4 (R74). -/
  | vsplat
deriving DecidableEq, Repr

end Sys2Proof
end

