-- ==== Sys2Proof/Config.lean ====
section
/-! DEFINITION. The configuration record (spec/00_scope.md R2, R3, R4): the size parameters, which are fixed, and the
three constant tables, which the spec keeps as open parameters with default values (spec/92_eei_decisions.md D4, D5). -/

namespace Sys2Proof

/-- The parameters of R2 under the spec's names, and the tables of R4. The sizes that shape a type (LANES, NSTATE and so
on) are recorded so that `Config.wf` can hold them against the types; WARMUP, INC, the two shifts and the three tables
are read by the meanings. -/
structure Config where
  lanes : Nat
  laneBits : Nat
  vecBits : Nat
  halfBits : Nat
  halves : Nat
  nState : Nat
  nOut : Nat
  nCtr : Nat
  seedWords : Nat
  keyWords : Nat
  warmup : Nat
  inc : Vec
  shiftEven : BitVec 6
  shiftOdd : BitVec 6
  blockWords : Nat
  blockBytes : Nat
  bufBytes : Nat
  /-- K_TABLE: key word `K[4*i + j]` is element `j` of group `i` (R17, R91). -/
  kTable : Quad (Quad Word)
  permA : PermTable
  permB : PermTable
deriving DecidableEq, Repr

/-- Key word `K[4*i + j]` (R17). -/
def Config.key (c : Config) (i j : Fin 4) : Word := (c.kTable.get i).get j

/-- The table that `tsel` selects (R58). -/
def Config.table (c : Config) (t : TableSel) : PermTable :=
  match t with
  | .permA => c.permA
  | .permB => c.permB

/-- The key schedule of R17, rows of four in the order `K[0]`, `K[1]`, ... -/
def Config.defaultKeys : Quad (Quad Word) :=
  ⟨⟨0x9E3779B97F4A7C15, 0xF39CC0605CEDC834, 0x1082276BF3A27251, 0xF86C6A11D0C18E95⟩,
   ⟨0x2767F0B153D27B7F, 0x0347045B5BF1827F, 0x01886F0928403002, 0xC1D64BA40F335E36⟩,
   ⟨0xF06AD7AE9717877E, 0x85839D6EFFBD7DC6, 0x64D325D1C5371682, 0xCADD0CCCFDFFBBE1⟩,
   ⟨0x626E33B8D04B4331, 0xBBF73C790D94F79D, 0x471C4AB3ED3D82A5, 0xFEC507705E4AE6E5⟩⟩

/-- The engine: R2's values, R17's key schedule, R18's two tables, R19's increment and shifts. The table values are the
spec's own, marked there as general knowledge (log entry 3). -/
def Config.engine : Config where
  lanes := 4
  laneBits := 64
  vecBits := 256
  halfBits := 32
  halves := 8
  nState := 4
  nOut := 4
  nCtr := 1
  seedWords := 4
  keyWords := 16
  warmup := 13
  inc := ⟨1, 3, 5, 7⟩
  shiftEven := 1
  shiftOdd := 3
  blockWords := 16
  blockBytes := 128
  bufBytes := 128
  kTable := Config.defaultKeys
  permA := ⟨5, 2, 7, 4, 1, 6, 3, 0⟩
  permB := ⟨7, 4, 1, 6, 3, 0, 5, 2⟩

end Sys2Proof
end

