-- ==== Sys2Proof/Machine/ByteOrder.lean ====
section
/-! DEFINITION. Little-endian byte order (spec/00_scope.md section 5, spec/20_memory.md R34). -/

namespace Sys2Proof

/-- `le64(w)`: the eight bytes of `w`, least significant first; byte `m` is `w[8*m+7 : 8*m]`. -/
def le64 (w : Word) : List Byte :=
  [w.extractLsb' 0 8, w.extractLsb' 8 8, w.extractLsb' 16 8, w.extractLsb' 24 8,
   w.extractLsb' 32 8, w.extractLsb' 40 8, w.extractLsb' 48 8, w.extractLsb' 56 8]

/-- The number whose byte `m` is `bs[m]`: `bs[0] + 2^8 * bs[1] + ...` -/
def leNat : List Byte → Nat
  | [] => 0
  | b :: bs => b.toNat + 256 * leNat bs

/-- `le64_inv(bytes)`. -/
def le64Inv (bs : List Byte) : Word := BitVec.ofNat 64 (leNat bs)

/-- `le32_inv(bytes)`. -/
def le32Inv (bs : List Byte) : Half := BitVec.ofNat 32 (leNat bs)

/-- The `n` low bytes of a number, least significant first (R50: a command viewed as one unsigned integer). -/
def natBytes : Nat → Nat → List Byte
  | 0, _ => []
  | n + 1, w => BitVec.ofNat 8 w :: natBytes n (w / 256)

end Sys2Proof
end

