-- ==== Sys2Proof/Machine/State.lean ====
section
/-! DEFINITION. Everything the spec gives the engine to hold (spec/10_state.md), the two byte channels and the reset input
through which the host reaches it (spec/20_memory.md R30, spec/70_reset_and_hazards.md R150), the ALU request port
(spec/30_encoding.md R58), and the reasons a step can stop. -/

namespace Sys2Proof.Machine

/-- The buffer's contents: address and byte pairs, addresses strictly rising and below 128, no entry equal to
`unlistedByte` (`Memory.wf` in Machine/Ops.lean). -/
abbrev Memory := List Host.Cell

/-- What an address of BUF that is not listed reads as. DESIGN CHOICE (log entry 2): the spec leaves BUF unspecified
after reset (R24); no rule reads a cell before REFILL has written it. -/
def unlistedByte : Byte := 0

/-- STATUS.CAUSE (R16, R130); its code is `Cause.code` in Machine/Flags.lean. -/
inductive Cause where
  | none
  | illegalOpcode
  | notSeeded
  /-- Reserved for the build-time invariant; no command raises it (R133). -/
  | configInvariant
deriving DecidableEq, Repr

/-- STATUS (R16): four fields, together 12 bits; `Status.word` in Machine/Flags.lean gives the status lines. -/
@[ext]
structure Status where
  seeded : Bool
  fault : Bool
  cause : Cause
  finfo : BitVec 8
deriving DecidableEq, Repr

/-- PHASE of the byte-stream state machine (R22, R121). -/
inductive Phase where
  | idle
  | drain
  | bulk
  | tail
deriving DecidableEq, Repr

/-- The round generator's registers: S[0..3], O[0..3] and CTR (R10 to R13), and its transients T[0..3], U[0..3] and
W[0..15] (R22). -/
@[ext]
structure Gen where
  s : Quad Vec
  o : Quad Vec
  ctr : Vec
  t : Quad Vec
  u : Quad Vec
  w : Words16
deriving DecidableEq, Repr

/-- The ALU request port of R58: the pending request's control word, the operand buses `a`, `b`, `x` and the result `r`.
The engine's own requests do not pass through it (log entry 5). -/
@[ext]
structure AluPort where
  req : Option (BitVec 10)
  a : Vec
  b : Vec
  x : Word
  r : Vec
deriving DecidableEq, Repr

/-- The engine. -/
@[ext]
structure State where
  /-- S, O, CTR and the round's transients (R10 to R13, R22). -/
  gen : Gen
  /-- BUF, 128 cells of 8 bits (R14). -/
  buf : Memory
  /-- CUR, 8 bits, legal values 0 to 128 (R15). -/
  cur : BitVec 8
  /-- STATUS (R16). -/
  status : Status
  /-- REM, the bytes a FILL still owes, 64 bits (R22). -/
  rem : Word
  /-- PHASE, IDLE between commands (R22). -/
  phase : Phase
  /-- The ALU request port (R58). -/
  alu : AluPort
  /-- The command channel: bytes the host has sent and the engine has not consumed (R33). -/
  cmd : List Byte
  /-- The response channel: bytes emitted and not yet taken by the host (R36). -/
  resp : List Byte
  /-- The reset input; true while it is asserted (R150). -/
  rst : Bool
deriving DecidableEq, Repr

/-- Why the machine stops with a fault. The faults of spec/60_exceptions.md are not here: they are states (R135), not
stops. -/
inductive Fault where
  /-- Raised by the single-byte read with CUR above 128: MemRead requires the address to be below 128 (R8, R31), and CUR
  never holds 129 to 255 (R15, R23). Safe: no run from reset reaches it. -/
  | bufAddress (a : Nat)
deriving DecidableEq, Repr

/-- Why a step does not happen. -/
inductive Refusal where
  /-- An instruction that `exec` does not model yet. Safe. -/
  | notModelled (mnemonic : String)
  /-- Raised by the fetch: the command channel is empty or holds an incomplete command, and the engine "has no step
  until the last byte of the command is present" (R57). Safe: it is the spec's own waiting. -/
  | awaitingCommand
  /-- Raised by the fetch: reset is asserted, and "while it is asserted no command is decoded" (R150). Safe. -/
  | heldInReset
  /-- Raised by the fetch: an ALU control word with the reserved `aluop` 5, 6 or 7 ("a model refuses them", R59). Safe. -/
  | reservedAluOp (aluop : BitVec 3)
deriving DecidableEq, Repr

/-- A vector of four zero lanes. -/
def zeroVec : Vec := ⟨0, 0, 0, 0⟩

/-- Four zero vectors. -/
def zeroVecs : Quad Vec := ⟨zeroVec, zeroVec, zeroVec, zeroVec⟩

/-- The state right after reset. CUR, STATUS and PHASE as R24 and R150 say; nothing pending on the channels. The spec
leaves S, O, CTR, BUF, T, U, W and REM unspecified and gives the ALU buses no value: zero is a DESIGN CHOICE (log
entries 1 and 2). -/
def State.reset : State where
  gen := ⟨zeroVecs, zeroVecs, zeroVec, zeroVecs, zeroVecs, zeroVecs⟩
  buf := []
  cur := 128
  status := ⟨false, false, .none, 0⟩
  rem := 0
  phase := .idle
  alu := ⟨.none, zeroVec, zeroVec, 0, zeroVec⟩
  cmd := []
  resp := []
  rst := false

/-- An answer of a meaning or of a shared operation. -/
abbrev Answer (α : Type) := Host.Outcome α Fault Refusal

/-- An answer that carries the next state. -/
abbrev Res := Answer State

end Sys2Proof.Machine
end

