-- ==== Sys2Proof/Machine/Flags.lean ====
section
/-! DEFINITION. The STATUS register as the twelve status lines (spec/10_state.md R16, spec/60_exceptions.md R130). The
engine has no flags, condition codes or predicates (R21). -/

namespace Sys2Proof.Machine

/-- The code of a cause (R130). -/
def Cause.code (c : Cause) : BitVec 2 :=
  match c with
  | .none => 0
  | .illegalOpcode => 1
  | .notSeeded => 2
  | .configInvariant => 3

/-- The cause a code stands for (R16). -/
def Cause.ofCode (b : BitVec 2) : Cause :=
  if b = 0 then .none else if b = 1 then .illegalOpcode else if b = 2 then .notSeeded else .configInvariant

/-- STATUS as one number: `FINFO[11:4] CAUSE[3:2] FAULT[1] SEEDED[0]` (R16). -/
def Status.word (st : Status) : BitVec 12 :=
  st.finfo ++ st.cause.code ++ BitVec.ofBool st.fault ++ BitVec.ofBool st.seeded

/-- The fields of a STATUS number (R16). -/
def Status.ofWord (b : BitVec 12) : Status :=
  ⟨b.getLsbD 0, b.getLsbD 1, Cause.ofCode (b.extractLsb' 2 2), b.extractLsb' 4 8⟩

end Sys2Proof.Machine
end

