-- ==== Sys2Proof/Machine/Operands.lean ====
section
/-! DEFINITION. The forms in which a vector is taken as an operand: its lanes (`from_array`, `to_array`,
spec/40_vector_alu.md R75), the 8 x 32 view (R76), and the flat 256-bit value (spec/10_state.md R10). -/

namespace Sys2Proof.Machine

/-- `from_array([w0, w1, w2, w3])`: lane `i` is `wi` (R75). -/
def fromArray (w0 w1 w2 w3 : Word) : Vec := ⟨w0, w1, w2, w3⟩

/-- `to_array(v)`: the lanes, lane 0 first (R75). -/
def toArray (v : Vec) : List Word := v.toList

/-- The low half of a lane, bits 31:0. -/
def lowHalf (w : Word) : Half := w.extractLsb' 0 32

/-- The high half of a lane, bits 63:32. -/
def highHalf (w : Word) : Half := w.extractLsb' 32 32

/-- The lane `{high, low}`. -/
def joinHalves (high low : Half) : Word := high ++ low

/-- The 8 x 32 view of R76: element `2*i` is the low half of lane `i`, element `2*i + 1` the high half. -/
def halves (v : Vec) : Oct Half :=
  ⟨lowHalf v.e0, highHalf v.e0, lowHalf v.e1, highHalf v.e1,
   lowHalf v.e2, highHalf v.e2, lowHalf v.e3, highHalf v.e3⟩

/-- `half(v, e)` of R76. -/
def half (v : Vec) (e : Fin 8) : Half := (halves v).get e

/-- The inverse view of R76: `lane[i] = {h[2*i+1], h[2*i]}`. -/
def ofHalves (h : Oct Half) : Vec :=
  ⟨joinHalves h.e1 h.e0, joinHalves h.e3 h.e2, joinHalves h.e5 h.e4, joinHalves h.e7 h.e6⟩

/-- The vector as a 256-bit value: lane `i` in bits `64*i+63 : 64*i` (R10). -/
def flat (v : Vec) : BitVec 256 := v.e3 ++ v.e2 ++ v.e1 ++ v.e0

end Sys2Proof.Machine
end

