-- ==== Sys2Proof/Machine/Ops.lean ====
section
/-! DEFINITION. The shared operations: the buffer memory (spec/20_memory.md R31), the response channel (R36), sequencing,
fault entry (spec/60_exceptions.md R135) with reset, the only way out of a fault (R136), beside it, and the checks every
command makes first (R134, R137). -/

namespace Sys2Proof.Machine

/-- BUF_BYTES (R2): the addresses of BUF are 0..127. -/
def bufBytes : Nat := 128

/-- The canonical form, from address `lo` up. -/
def Memory.wfFrom : Nat → Memory → Bool
  | _, [] => true
  | lo, (a, b) :: rest => lo ≤ a && a < bufBytes && b != unlistedByte && Memory.wfFrom (a + 1) rest

/-- Addresses strictly rising and below 128, no entry equal to what an unlisted address reads as. -/
def Memory.wf (m : Memory) : Bool := Memory.wfFrom 0 m

/-- The byte a cell holds. -/
def Memory.lookup : Memory → Nat → Byte
  | [], _ => unlistedByte
  | (k, v) :: rest, a => if k = a then v else Memory.lookup rest a

/-- `BUF[a]`, for an address that exists (R8: MemRead requires it below 128). -/
def Memory.read (m : Memory) (a : Nat) : Option Byte :=
  if a < bufBytes then some (Memory.lookup m a) else none

/-- `BUF[a] <- b`, keeping the canonical form. -/
def Memory.write : Memory → Nat → Byte → Memory
  | [], a, b => if b = unlistedByte then [] else [(a, b)]
  | (k, v) :: rest, a, b =>
    if a < k then (if b = unlistedByte then (k, v) :: rest else (a, b) :: (k, v) :: rest)
    else if a = k then (if b = unlistedByte then rest else (a, b) :: rest)
    else (k, v) :: Memory.write rest a b

/-- `MemWrite(BUF, a, n, bytes)`: `BUF[a+j] <- bytes[j]` (R8). -/
def Memory.writeBytes : Memory → Nat → List Byte → Memory
  | m, _, [] => m
  | m, a, b :: bs => Memory.writeBytes (Memory.write m a b) (a + 1) bs

/-- First `o`, then `f` on what it answers; a stop of `o` is the answer. -/
def andThen {α β : Type} (o : Answer α) (f : α → Answer β) : Answer β :=
  match o with
  | .next a => f a
  | .fault r => .fault r
  | .refused r => .refused r

/-- `while cond: body`, for at most as many turns as the first argument says. -/
def whileDo (cond : State → Bool) (body : State → Res) : Nat → State → Res
  | 0, s => .next s
  | n + 1, s => if cond s then andThen (body s) (whileDo cond body n) else .next s

/-- `emit` each byte of a list, in order (R36). -/
def emit (bs : List Byte) (s : State) : State := { s with resp := s.resp ++ bs }

/-- `raise <Cause>(info)` (R135): the three fields, and nothing else. -/
def raise (cause : Cause) (info : Byte) (s : State) : State :=
  { s with status := { s.status with fault := true, cause := cause, finfo := info } }

/-- Release of the reset input (R150, R24): CUR = 128, STATUS = 0, PHASE = IDLE, and bytes on either channel are dropped.
S, O, CTR, BUF and the transients are unspecified; reset neither reads nor writes them (R25), so they keep what they held
(log entry 8). There is no other return from a fault (R136). -/
def releaseReset (s : State) : State :=
  { s with
    cur := 128
    status := ⟨false, false, .none, 0⟩
    phase := .idle
    alu := { s.alu with req := none }
    cmd := []
    resp := []
    rst := false }

/-- The checks of R134 around a command's own effect: discarded while FAULT = 1 (R137); NOT_SEEDED with the command's
opcode byte where the command generates and the engine is not seeded (R132); else it executes. -/
def guarded (op : Byte) (generates : Bool) (body : State → Res) (s : State) : Res :=
  if s.status.fault then .next s
  else if generates && !s.status.seeded then .next (raise .notSeeded op s)
  else body s

/-- An opcode byte that is no command (R131): ILLEGAL_OPCODE with that byte, discarded while FAULT = 1 (R134). -/
def illegalOpcode (op : Byte) (s : State) : State :=
  if s.status.fault then s else raise .illegalOpcode op s

end Sys2Proof.Machine
end

