-- ==== Sys2Proof/Machine/Alu.lean ====
section
/-! DEFINITION. The vector-lane ALU (spec/40_vector_alu.md): its five operations as pure functions (R79), and the meaning
of a request on the ALU port (spec/30_encoding.md R58, R59). -/

namespace Sys2Proof.Machine

/-- VADD (R71): per-lane addition modulo 2^64. -/
def vadd (a b : Vec) : Vec := Quad.ofFn fun i => a.get i + b.get i

/-- VXOR (R72): per-lane exclusive or. -/
def vxor (a b : Vec) : Vec := Quad.ofFn fun i => a.get i ^^^ b.get i

/-- VSRL (R73): per-lane logical right shift by 0..63. -/
def vsrl (a : Vec) (n : BitVec 6) : Vec := Quad.ofFn fun i => a.get i >>> n.toNat

/-- VSPLAT (R74): every lane is `x`. -/
def vsplat (x : Word) : Vec := Quad.ofFn fun _ => x

/-- PERM32 (R77), a gather: output element `e` is input element `P[e]`. -/
def perm32 (v : Vec) (P : PermTable) : Vec := ofHalves (Oct.ofFn fun e => half v (P.get e))

/-- VPERM32 (R78). -/
def vperm32 (c : Config) (a : Vec) (t : TableSel) : Vec := perm32 a (c.table t)

/-- The result appears on the port's result bus. -/
def driveResult (v : Vec) (s : State) : State := { s with alu := { s.alu with r := v } }

/-- The request VADD (R71). -/
def execVadd (s : State) : Res := .next (driveResult (vadd s.alu.a s.alu.b) s)

/-- The request VXOR (R72). -/
def execVxor (s : State) : Res := .next (driveResult (vxor s.alu.a s.alu.b) s)

/-- The request VSRL (R73). -/
def execVsrl (shamt : BitVec 6) (s : State) : Res := .next (driveResult (vsrl s.alu.a shamt) s)

/-- The request VPERM32 (R78). -/
def execVperm32 (tsel : TableSel) (s : State) : Res :=
  .next (driveResult (vperm32 Config.engine s.alu.a tsel) s)

/-- The request VSPLAT (R74). -/
def execVsplat (s : State) : Res := .next (driveResult (vsplat s.alu.x) s)

end Sys2Proof.Machine
end

