-- ==== Sys2Proof/Machine/Round.lean ====
section
/-! DEFINITION. The round generator (spec/42_round.md): ROUND, UNPACK, BLOCKBYTES and the command RNDU. -/

namespace Sys2Proof.Machine

/-- `shift(k)` (R102): SHIFT_EVEN for state vectors 0 and 2, SHIFT_ODD for 1 and 3. -/
def shiftOf (c : Config) (k : Fin 4) : BitVec 6 := if k = 0 ∨ k = 2 then c.shiftEven else c.shiftOdd

/-- `P(k)` (R103): table A for even `k`, table B for odd `k`. -/
def tableOf (k : Fin 4) : TableSel := if k = 0 ∨ k = 2 then .permA else .permB

/-- Step 1 (R101): S[1] and S[3] take the counter from before its increment. -/
def roundStep1 (c : Config) (g : Gen) : Gen :=
  { g with
    s := ⟨g.s.e0, vadd g.s.e1 g.ctr, g.s.e2, vadd g.s.e3 g.ctr⟩
    ctr := vadd g.ctr c.inc }

/-- Step 2 (R102): the shifted copies U. -/
def roundStep2 (c : Config) (g : Gen) : Gen :=
  { g with u := Quad.ofFn fun k => vsrl (g.s.get k) (shiftOf c k) }

/-- Step 3 (R103): the permuted copies T. -/
def roundStep3 (c : Config) (g : Gen) : Gen :=
  { g with t := Quad.ofFn fun k => vperm32 c (g.s.get k) (tableOf k) }

/-- Step 4 (R104): the new S. -/
def roundStep4 (g : Gen) : Gen :=
  { g with s := Quad.ofFn fun k => vadd (g.t.get k) (g.u.get k) }

/-- Step 6 (R105): the new pipeline registers, from U, T and the S of step 4. -/
def roundStep6 (g : Gen) : Gen :=
  { g with
    o := ⟨vxor g.u.e0 g.t.e1, vxor g.u.e2 g.t.e3, vxor g.s.e0 g.s.e3, vxor g.s.e2 g.s.e1⟩ }

/-- ROUND (R100): the four returned vectors, which are O from before step 6 (step 5, R105), and the registers after. -/
def oneRound (c : Config) (g : Gen) : Quad Vec × Gen :=
  let g4 := roundStep4 (roundStep3 c (roundStep2 c (roundStep1 c g)))
  (g4.o, roundStep6 g4)

/-- UNPACK (R106): `W[4*g + i] = ret[g].lane[3 - i]`. -/
def unpack (ret : Quad Vec) : Words16 := Quad.ofFn fun g => Quad.ofFn fun i => (ret.get g).get i.rev

/-- The words W[0], ..., W[15] in order. -/
def wordList (w : Words16) : List Word := w.toList.flatMap Quad.toList

/-- BLOCKBYTES (R107): each word little-endian, W[0] first. -/
def blockBytes (w : Words16) : List Byte := (wordList w).flatMap le64

/-- UNPACK(ROUND()), leaving the words in W (R106, R22). -/
def roundUnpack (c : Config) (g : Gen) : Words16 × Gen :=
  let r := oneRound c g
  let w := unpack r.1
  (w, { r.2 with w := w })

/-- The effect of RNDU on a seeded, unfaulted engine (R108): one round, its block emitted; BUF and CUR untouched. -/
def rndu (c : Config) (s : State) : State :=
  let r := roundUnpack c s.gen
  emit (blockBytes r.1) { s with gen := r.2 }

/-- RNDU (R108). -/
def execRndu (s : State) : Res := guarded 0x02 true (fun q => .next (rndu Config.engine q)) s

end Sys2Proof.Machine
end

