-- ==== Sys2Proof/Machine/Seed.lean ====
section
/-! DEFINITION. Seed expansion and warm-up: the command SEED (spec/41_seed.md). -/

namespace Sys2Proof.Machine

/-- Initial state vector `i` (R91), given the key schedule and its two seed words: lanes
`K[4i+3], K[4i+2] ^ hi, K[4i+1], K[4i] ^ lo`. -/
def seedVector (c : Config) (i : Fin 4) (lo hi : Word) : Vec :=
  fromArray (c.key i 3) (c.key i 2 ^^^ hi) (c.key i 1) (c.key i 0 ^^^ lo)

/-- Step 1 of SEED (R91): `s_lo = [0, 2, 2, 0]`, `s_hi = [1, 3, 3, 1]`. -/
def expandSeed (c : Config) (seed0 seed1 seed2 seed3 : Word) : Quad Vec :=
  ⟨seedVector c 0 seed0 seed1, seedVector c 1 seed2 seed3,
   seedVector c 2 seed2 seed3, seedVector c 3 seed0 seed1⟩

/-- The cross assignment (R93): `S[k] <- O[3 - k]`. -/
def crossAssign (g : Gen) : Gen := { g with s := ⟨g.o.e3, g.o.e2, g.o.e1, g.o.e0⟩ }

/-- `n` warm-up iterations (R93): a ROUND whose returned vectors are dropped, then the cross assignment. -/
def warmUp (c : Config) : Nat → Gen → Gen
  | 0, g => g
  | n + 1, g => warmUp c n (crossAssign (oneRound c g).2)

/-- The effect of SEED on an unfaulted engine (R90 to R94). -/
def seed (c : Config) (seed0 seed1 seed2 seed3 : Word) (s : State) : State :=
  let z := vsplat 0
  let g : Gen := { s.gen with s := expandSeed c seed0 seed1 seed2 seed3, o := ⟨z, z, z, z⟩, ctr := z }
  { s with
    gen := warmUp c c.warmup g
    cur := 128
    status := { s.status with seeded := true } }

/-- SEED (R90). -/
def execSeed (seed0 seed1 seed2 seed3 : Word) (s : State) : Res :=
  guarded 0x01 false (fun q => .next (seed Config.engine seed0 seed1 seed2 seed3 q)) s

end Sys2Proof.Machine
end

