-- ==== Sys2Proof/Machine/Stream.lean ====
section
/-! DEFINITION. The output buffer and the byte stream (spec/43_byte_stream.md): REFILL, READBYTE, and the commands RDB,
FILL, NXT32 and NXT64. -/

namespace Sys2Proof.Machine

/-- REFILL (R110): one round, its block written to BUF at address 0, CUR <- 0. -/
def refill (c : Config) (s : State) : State :=
  let r := roundUnpack c s.gen
  { s with gen := r.2, buf := Memory.writeBytes s.buf 0 (blockBytes r.1), cur := 0 }

/-- MemRead(BUF, CUR, 1), and CUR <- CUR + 1. -/
def readAtCursor (s : State) : Answer (Byte × State) :=
  match Memory.read s.buf s.cur.toNat with
  | some b => .next (b, { s with cur := s.cur + 1 })
  | none => .fault (.bufAddress s.cur.toNat)

/-- READBYTE (R111): refill if the buffer is empty, then read at the cursor. -/
def readByte (c : Config) (s : State) : Answer (Byte × State) :=
  readAtCursor (if s.cur = 128 then refill c s else s)

/-- `emit(READBYTE())`. -/
def emitByte (c : Config) (s : State) : Res :=
  andThen (readByte c s) fun p => .next (emit [p.1] p.2)

/-- `emit(READBYTE()); REM <- REM - 1`: the body of the DRAIN and TAIL loops (R112). -/
def takeByte (c : Config) (s : State) : Res :=
  andThen (emitByte c s) fun q => .next { q with rem := q.rem - 1 }

/-- One turn of the BULK loop (R112, R114): a round whose block is emitted past the buffer, `REM <- REM - 128`. -/
def takeBlock (c : Config) (s : State) : Res :=
  let r := roundUnpack c s.gen
  .next (emit (blockBytes r.1) { s with gen := r.2, rem := s.rem - 128 })

/-- Phase DRAIN (R113): `while CUR < 128 and REM > 0`. -/
def drain (c : Config) (s : State) : Res :=
  whileDo (fun q => q.cur.toNat < 128 && 0 < q.rem.toNat) (takeByte c) s.rem.toNat s

/-- Phase BULK (R114): `while REM >= 128`. -/
def bulk (c : Config) (s : State) : Res :=
  whileDo (fun q => 128 ≤ q.rem.toNat) (takeBlock c) s.rem.toNat s

/-- Phase TAIL (R115): `while REM > 0`. -/
def tail (c : Config) (s : State) : Res :=
  whileDo (fun q => 0 < q.rem.toNat) (takeByte c) s.rem.toNat s

/-- The acceptance row of R121: REM <- len, PHASE <- DRAIN. -/
def acceptFill (len : Word) (s : State) : State := { s with rem := len, phase := .drain }

/-- PHASE <- p (R121). -/
def enter (p : Phase) (s : State) : State := { s with phase := p }

/-- FILL on a seeded, unfaulted engine (R112): the three phases in order, PHASE as R121 names them. -/
def fill (c : Config) (len : Word) (s : State) : Res :=
  andThen (drain c (acceptFill len s)) fun s1 =>
  andThen (bulk c (enter .bulk s1)) fun s2 =>
  andThen (tail c (enter .tail s2)) fun s3 =>
  .next (enter .idle s3)

/-- RDB (R111). -/
def execRdb (s : State) : Res := guarded 0x03 true (emitByte Config.engine) s

/-- FILL (R112). -/
def execFill (len : Word) (s : State) : Res := guarded 0x04 true (fill Config.engine len) s

/-- NXT32 (R117): state change and response bytes are those of `fill 4`. -/
def execNxt32 (s : State) : Res := guarded 0x05 true (fill Config.engine 4) s

/-- NXT64 (R118): state change and response bytes are those of `fill 8`. -/
def execNxt64 (s : State) : Res := guarded 0x06 true (fill Config.engine 8) s

/-- The bytes a command added to the response channel. -/
def emitted (before after : State) : List Byte := after.resp.drop before.resp.length

/-- The `u32` result of NXT32 (R117), recovered from the four bytes it emitted (R36). -/
def nxt32Result (before after : State) : Half := le32Inv (emitted before after)

/-- The `u64` result of NXT64 (R118), recovered from the eight bytes it emitted (R36). -/
def nxt64Result (before after : State) : Word := le64Inv (emitted before after)

end Sys2Proof.Machine
end

