-- ==== Sys2Proof/Machine/Dispatch.lean ====
section
/-! DEFINITION. Every instruction's meaning, one arm per constructor. -/

namespace Sys2Proof.Machine

def exec (i : Instr) (s : State) : Host.Outcome State Fault Refusal :=
  match i with
  | .seed seed0 seed1 seed2 seed3 => Sys2Proof.Machine.execSeed seed0 seed1 seed2 seed3 s
  | .rndu => Sys2Proof.Machine.execRndu s
  | .rdb => Sys2Proof.Machine.execRdb s
  | .fill len => Sys2Proof.Machine.execFill len s
  | .nxt32 => Sys2Proof.Machine.execNxt32 s
  | .nxt64 => Sys2Proof.Machine.execNxt64 s
  | .vadd => Sys2Proof.Machine.execVadd s
  | .vxor => Sys2Proof.Machine.execVxor s
  | .vsrl shamt => Sys2Proof.Machine.execVsrl shamt s
  | .vperm32 tsel => Sys2Proof.Machine.execVperm32 tsel s
  | .vsplat => Sys2Proof.Machine.execVsplat s

end Sys2Proof.Machine
end

