-- ==== Sys2Proof/Decode.lean ====
section
/-! DEFINITION. The two decoders, total on any bytes and on any control word (spec/30_encoding.md R50 to R60, R64), and
after them the encoders, written from the same tables. -/

namespace Sys2Proof

/-- The length of a command, from its opcode byte alone (R60). -/
def commandLength (op : Byte) : Nat :=
  if op = 0x01 then 33 else if op = 0x04 then 9 else 1

/-- What the command decoder answers (R64). -/
inductive Decoded where
  /-- The channel is empty or holds an incomplete command (R57). -/
  | wait
  /-- A complete command and the number of bytes it takes. -/
  | command (i : Instr) (consumed : Nat)
  /-- An opcode byte that is no command (R56); it alone is consumed. -/
  | illegal (op : Byte)
deriving DecidableEq, Repr

/-- The 64-bit operand that starts at command byte `j` (R55). -/
def operand64 (c : List Byte) (j : Nat) : Word := le64Inv ((c.drop j).take 8)

/-- The decoder of R64 on the unconsumed command bytes. -/
def decodeCommand (c : List Byte) : Decoded :=
  match c with
  | [] => .wait
  | op :: _ =>
    if c.length < commandLength op then .wait
    else if op = 0x01 then
      .command (.seed (operand64 c 1) (operand64 c 9) (operand64 c 17) (operand64 c 25)) 33
    else if op = 0x02 then .command .rndu 1
    else if op = 0x03 then .command .rdb 1
    else if op = 0x04 then .command (.fill (operand64 c 1)) 9
    else if op = 0x05 then .command .nxt32 1
    else if op = 0x06 then .command .nxt64 1
    else .illegal op

/-- What the ALU-request decoder answers (R59). -/
inductive AluDecoded where
  | request (i : Instr)
  /-- `aluop` 5, 6 or 7: "a model refuses them" (R59, U6). -/
  | reserved (aluop : BitVec 3)
deriving DecidableEq, Repr

/-- The `tsel` bit of a control word (R58). -/
def tableSelOf (b : BitVec 1) : TableSel := if b = 0 then .permA else .permB

/-- The decoder of the 10-bit control word: `aluop` in bits 2:0, `shamt` in 8:3, `tsel` in 9; a field that the operation
does not use is ignored (R58). -/
def decodeAlu (ctl : BitVec 10) : AluDecoded :=
  let aluop : BitVec 3 := ctl.extractLsb' 0 3
  if aluop = 0 then .request .vadd
  else if aluop = 1 then .request .vxor
  else if aluop = 2 then .request (.vsrl (ctl.extractLsb' 3 6))
  else if aluop = 3 then .request (.vperm32 (tableSelOf (ctl.extractLsb' 9 1)))
  else if aluop = 4 then .request .vsplat
  else .reserved aluop

/-- The longest instruction, in bytes (SEED, R53). -/
def longestBytes : Nat := 33

/-- Is a table row of this width an ALU control word? Its 10 bits are two whole bytes; commands have 8, 72 or 264 bits. -/
def isControlWidth (nbits : Nat) : Bool := 8 < nbits && nbits ≤ 16

/-- The control word laid out in the low 10 of a two-byte word. -/
def controlWordOf (w : Nat) : BitVec 10 := BitVec.ofNat 10 w

/-- The bytes of the instruction whose table bits are `w`, first byte first, zeros above `nbits` up to the longest
instruction (R50: byte 0 in bits 7:0). -/
def tableBytes (nbits w : Nat) : List Byte :=
  natBytes (nbits / 8) w ++ List.replicate (longestBytes - nbits / 8) 0

/-- The instruction the decoders read from a table word. -/
def decodeTableWord (nbits w : Nat) : Option Instr :=
  if isControlWidth nbits then
    match decodeAlu (controlWordOf w) with
    | .request i => some i
    | .reserved _ => none
  else
    match decodeCommand (tableBytes nbits w) with
    | .command i _ => some i
    | .wait => none
    | .illegal _ => none

/-- What an instruction is written as: command bytes, or an ALU control word. -/
inductive Encoded where
  | bytes (bs : List Byte)
  | control (ctl : BitVec 10)
deriving DecidableEq, Repr

/-- The control word of R58, `tsel` `shamt` `aluop` from the top. -/
def controlWord (tsel : BitVec 1) (shamt : BitVec 6) (aluop : BitVec 3) : BitVec 10 := tsel ++ shamt ++ aluop

/-- The `tsel` bit of a table select. -/
def tselBit (t : TableSel) : BitVec 1 :=
  match t with
  | .permA => 0
  | .permB => 1

/-- The encoder (R51 to R54, R58, R59): a command's bytes in channel order, an ALU request's control word with its unused
fields zero, as the round generator drives them (U8). -/
def encode (i : Instr) : Encoded :=
  match i with
  | .seed a b c d => .bytes (0x01 :: (le64 a ++ le64 b ++ le64 c ++ le64 d))
  | .rndu => .bytes [0x02]
  | .rdb => .bytes [0x03]
  | .fill len => .bytes (0x04 :: le64 len)
  | .nxt32 => .bytes [0x05]
  | .nxt64 => .bytes [0x06]
  | .vadd => .control (controlWord 0 0 0)
  | .vxor => .control (controlWord 0 0 1)
  | .vsrl n => .control (controlWord 0 n 2)
  | .vperm32 t => .control (controlWord (tselBit t) 0 3)
  | .vsplat => .control (controlWord 0 0 4)

/-- The command bytes of an instruction; none of an ALU request. -/
def commandBytes (i : Instr) : List Byte :=
  match encode i with
  | .bytes bs => bs
  | .control _ => []

/-- Is it one of the six commands (R54), not an ALU request? -/
def Instr.isCommand (i : Instr) : Bool :=
  match encode i with
  | .bytes _ => true
  | .control _ => false

end Sys2Proof
end

