-- ==== Sys2Proof/Machine/Fetch.lean ====
section
/-! DEFINITION. Where the next instruction comes from: the ALU request port if a request is pending on it, else the
command channel (spec/20_memory.md R33, spec/30_encoding.md R57, R64). -/

namespace Sys2Proof.Machine

/-- What the fetch finds. -/
inductive Fetched where
  /-- An instruction, and the state with it consumed. -/
  | run (i : Instr) (s : State)
  /-- An illegal opcode byte, and the state with it consumed (R56). -/
  | illegal (op : Byte) (s : State)
  /-- No step. -/
  | stop (r : Refusal)
deriving DecidableEq, Repr

/-- Consume `n` bytes of the command channel (R33). -/
def consume (n : Nat) (s : State) : State := { s with cmd := s.cmd.drop n }

/-- Take the next command off the channel: exactly its bytes, never reading ahead (R33). -/
def fetchCommand (s : State) : Fetched :=
  match decodeCommand s.cmd with
  | .wait => .stop .awaitingCommand
  | .command i n => .run i (consume n s)
  | .illegal op => .illegal op (consume 1 s)

/-- Take the pending request off the ALU port (R58). -/
def fetchAlu (ctl : BitVec 10) (s : State) : Fetched :=
  match decodeAlu ctl with
  | .request i => .run i { s with alu := { s.alu with req := none } }
  | .reserved aluop => .stop (.reservedAluOp aluop)

/-- The fetch. Nothing is decoded while reset is asserted (R150). -/
def fetch (s : State) : Fetched :=
  if s.rst then .stop .heldInReset
  else
    match s.alu.req with
    | some ctl => fetchAlu ctl s
    | none => fetchCommand s

/-- The one command at the head of a byte list. -/
def headCommand (bs : List Byte) : List Byte :=
  match bs with
  | [] => []
  | op :: _ => bs.take (commandLength op)

/-- Put a table word where the fetch looks: a control word on the ALU port; a command's bytes at the head of the command
channel, with the ALU port empty. -/
def placeFetchWord (s : State) (nbits w : Nat) : State :=
  if isControlWidth nbits then
    { s with alu := { s.alu with req := some (controlWordOf w) }, rst := false }
  else
    { s with
      cmd := headCommand (tableBytes nbits w) ++ s.cmd
      alu := { s.alu with req := none }
      rst := false }

end Sys2Proof.Machine
end

