-- ==== Sys2Proof/Machine/Step.lean ====
section
/-! DEFINITION. One step: one whole command (spec/00_scope.md R5), or one request on the ALU port. -/

namespace Sys2Proof.Machine

/-- Fetch, then run what was fetched; an illegal opcode byte takes the fault entry (spec/60_exceptions.md R131). -/
def step (s : State) : Host.Outcome State Fault Refusal :=
  match fetch s with
  | .run i q => exec i q
  | .illegal op q => .next (illegalOpcode op q)
  | .stop r => .refused r

/-- The state with a table word placed where `step` fetches next. -/
def State.withFetchWord (s : State) (nbits w : Nat) : State := placeFetchWord s nbits w

end Sys2Proof.Machine
end

