-- ==== Sys2Proof/Machine/HostPort.lean ====
section
/-! DEFINITION. What the host can do to the engine (spec/70_reset_and_hazards.md R160): send command bytes, take response
bytes, sample the status lines, drive the reset input. -/

namespace Sys2Proof.Machine

/-- The host's actions; each lands between two steps. -/
inductive HostAction where
  /-- Send bytes on the command channel; they wait their turn (R33). -/
  | send (bs : List Byte)
  /-- Take one byte from the response channel, if there is one (R36). -/
  | take
  /-- Assert the reset input (R150). -/
  | assertReset
  /-- Release the reset input (R150). -/
  | releaseReset
deriving DecidableEq, Repr

/-- The state after a host action. Releasing a reset that is not asserted does nothing. -/
def hostAct (a : HostAction) (s : State) : State :=
  match a with
  | .send bs => { s with cmd := s.cmd ++ bs }
  | .take => { s with resp := s.resp.drop 1 }
  | .assertReset => { s with rst := true }
  | .releaseReset => if s.rst then releaseReset s else s

/-- The byte the host gets when it takes one: the oldest not yet taken (R36). -/
def responseByte (s : State) : Option Byte := s.resp.head?

/-- The status lines (R16). -/
def statusLines (s : State) : BitVec 12 := s.status.word

end Sys2Proof.Machine
end

