-- ==== Sys2Proof/Machine/Listing.lean ====
section
/-! DEFINITION. ROUND as the ALU requests it makes (spec/42_round.md R109, spec/30_encoding.md R58 and R61): each request
a control word with the vectors on its buses named, as the spec's listings name them. -/

namespace Sys2Proof.Machine

/-- The vectors a listing names (R61). -/
inductive VReg where
  | s (k : Fin 4)
  | o (k : Fin 4)
  | t (k : Fin 4)
  | u (k : Fin 4)
  | ctr
  | inc
deriving DecidableEq, Repr

/-- One listed request: `r` takes the result of the control word on `a` and `b`; `b` is absent from a unary request. -/
structure AluRequest where
  ctl : BitVec 10
  r : VReg
  a : VReg
  b : Option VReg
deriving DecidableEq, Repr

/-- The vector a name stands for. -/
def readVReg (c : Config) (g : Gen) (r : VReg) : Vec :=
  match r with
  | .s k => g.s.get k
  | .o k => g.o.get k
  | .t k => g.t.get k
  | .u k => g.u.get k
  | .ctr => g.ctr
  | .inc => c.inc

/-- What the round generator drives on bus `b`: the named vector, or zero where the operation does not use the bus
(spec/93_implementation_defined.md U8). -/
def busB (c : Config) (g : Gen) (b : Option VReg) : Vec :=
  match b with
  | some r => readVReg c g r
  | none => zeroVec

/-- The register file with one vector replaced; INC is read-only (R25). -/
def writeVReg (g : Gen) (r : VReg) (v : Vec) : Gen :=
  match r with
  | .s k => { g with s := g.s.set k v }
  | .o k => { g with o := g.o.set k v }
  | .t k => { g with t := g.t.set k v }
  | .u k => { g with u := g.u.set k v }
  | .ctr => { g with ctr := v }
  | .inc => g

/-- The ALU as a function of the control word and the buses (R58, R79); no result for a reserved `aluop` (R59). -/
def aluResult (c : Config) (ctl : BitVec 10) (a b : Vec) (x : Word) : Option Vec :=
  match decodeAlu ctl with
  | .request .vadd => some (vadd a b)
  | .request .vxor => some (vxor a b)
  | .request (.vsrl n) => some (vsrl a n)
  | .request (.vperm32 t) => some (vperm32 c a t)
  | .request .vsplat => some (vsplat x)
  | _ => none

/-- Serve one listed request. No listed operation uses bus `x`; it carries zero (log entry 15). -/
def serve (c : Config) (q : AluRequest) (g : Gen) : Option Gen :=
  (aluResult c q.ctl (readVReg c g q.a) (busB c g q.b) 0).map (writeVReg g q.r)

/-- Serve a listing in order. -/
def serveAll (c : Config) : List AluRequest → Gen → Option Gen
  | [], g => some g
  | q :: qs, g => (serve c q g).bind (serveAll c qs)

/-- The requests of one ROUND in the order R100 writes them, with the control words of spec/30_encoding.md section 9;
bus `b` of the unary requests is zero (U8). -/
def roundListing : List AluRequest :=
  [⟨0x000, .s 1, .s 1, some .ctr⟩, ⟨0x000, .s 3, .s 3, some .ctr⟩, ⟨0x000, .ctr, .ctr, some .inc⟩] ++
  [⟨0x00A, .u 0, .s 0, none⟩, ⟨0x01A, .u 1, .s 1, none⟩,
    ⟨0x00A, .u 2, .s 2, none⟩, ⟨0x01A, .u 3, .s 3, none⟩] ++
  [⟨0x003, .t 0, .s 0, none⟩, ⟨0x203, .t 1, .s 1, none⟩,
    ⟨0x003, .t 2, .s 2, none⟩, ⟨0x203, .t 3, .s 3, none⟩] ++
  [⟨0x000, .s 0, .t 0, some (.u 0)⟩, ⟨0x000, .s 1, .t 1, some (.u 1)⟩,
    ⟨0x000, .s 2, .t 2, some (.u 2)⟩, ⟨0x000, .s 3, .t 3, some (.u 3)⟩] ++
  [⟨0x001, .o 0, .u 0, some (.t 1)⟩, ⟨0x001, .o 1, .u 2, some (.t 3)⟩,
    ⟨0x001, .o 2, .s 0, some (.s 3)⟩, ⟨0x001, .o 3, .s 2, some (.s 1)⟩]

end Sys2Proof.Machine
end

