-- ==== Sys2Proof/Machine/PhaseTable.lean ====
section
/-! DEFINITION. The byte-stream state machine as the transition table of spec/43_byte_stream.md R121, one row firing per
step: the second description of FILL, which a statement holds against `fill`. -/

namespace Sys2Proof.Machine

/-- `emit BUF[CUR]; CUR + 1; REM - 1`. -/
def emitAtCursor (s : State) : Res :=
  andThen (readAtCursor s) fun p => .next { emit [p.1] p.2 with rem := p.2.rem - 1 }

/-- One row of R121's table. IDLE has no row but the acceptance of a command (`acceptFill`). -/
def phaseStep (c : Config) (s : State) : Res :=
  match s.phase with
  | .idle => .next s
  | .drain => if s.cur.toNat < 128 && 0 < s.rem.toNat then emitAtCursor s else .next (enter .bulk s)
  | .bulk => if 128 ≤ s.rem.toNat then takeBlock c s else .next (enter .tail s)
  | .tail =>
    if s.rem.toNat = 0 then .next (enter .idle s)
    else if s.cur = 128 then .next (refill c s)
    else emitAtCursor s

/-- `n` rows, one after the other. -/
def phaseRun (c : Config) : Nat → State → Res
  | 0, s => .next s
  | n + 1, s => andThen (phaseStep c s) (phaseRun c n)

end Sys2Proof.Machine
end

