-- ==== Sys2Proof/WellFormed.lean ====
section
/-! DEFINITION. Well-formedness: of the configuration record (spec/00_scope.md R2, R3; spec/92_eei_decisions.md D5 and
D31: a machine is not built from a record that breaks it) and of an instruction. -/

namespace Sys2Proof

/-- The configuration invariant of R3: BUF_BYTES = BLOCK_BYTES = BLOCK_WORDS x 8 = NOUT x LANES x (LANE_BITS / 8) = 128. -/
def Config.sizesAgree (c : Config) : Bool :=
  c.bufBytes == c.blockBytes && c.blockBytes == c.blockWords * 8 &&
    c.blockWords * 8 == c.nOut * c.lanes * (c.laneBits / 8) && c.bufBytes == 128

/-- The other sizes of R2 have the values the model's types are built for ("no other value is in scope"). -/
def Config.sizesFixed (c : Config) : Bool :=
  c.lanes == 4 && c.laneBits == 64 && c.vecBits == c.lanes * c.laneBits && c.halfBits == 32 &&
    c.halves == 8 && c.nState == 4 && c.nOut == 4 && c.nCtr == 1 && c.seedWords == 4 && c.keyWords == 16

/-- WARMUP, INC and the two shift amounts have R2's values. -/
def Config.roundFixed (c : Config) : Bool :=
  c.warmup == 13 && c.inc == ⟨1, 3, 5, 7⟩ && c.shiftEven == 1 && c.shiftOdd == 3

/-- A permutation table is a bijection on 0..7 (D5): every index occurs among its eight entries. -/
def PermTable.bijective (P : PermTable) : Bool :=
  (List.finRange 8).all fun e => P.toList.contains e

/-- A record a machine may be built from. The key schedule is unconstrained (D4). -/
def Config.wf (c : Config) : Bool :=
  c.sizesAgree && c.sizesFixed && c.roundFixed && PermTable.bijective c.permA && PermTable.bijective c.permB

/-- Construction (R3, R133): nothing is built from an ill-formed record. -/
def Config.build (c : Config) : Option Config := if c.wf then some c else none

/-- Every instruction is well formed: "all 2^64 values per word are valid" (R53), "every requested length [is] valid"
(R52), and the shift amount is typed 0..63 (spec/93_implementation_defined.md U7), so no operand value is left to check. -/
def Instr.wf (i : Instr) : Bool :=
  match i with
  | .seed _ _ _ _ => true
  | .rndu => true
  | .rdb => true
  | .fill _ => true
  | .nxt32 => true
  | .nxt64 => true
  | .vadd => true
  | .vxor => true
  | .vsrl _ => true
  | .vperm32 _ => true
  | .vsplat => true

end Sys2Proof
end

