-- ==== Sys2Proof/Safety.lean ====
section
/-! DEFINITION. The terms in which claims are made: the invariants between commands (spec/10_state.md R23), the byte
stream of a state (spec/43_byte_stream.md R120), runs of commands (spec/70_reset_and_hazards.md R161), and when two
states cannot be told apart. -/

namespace Sys2Proof.Machine

/-- STATUS between commands (R16, R130, R133): no cause without a fault, and with a fault one of the two run-time causes. -/
def Status.Legal (st : Status) : Prop :=
  (st.fault = false → st.cause = .none ∧ st.finfo = 0) ∧
  (st.fault = true → st.cause = .illegalOpcode ∨ st.cause = .notSeeded)

/-- What holds between commands (R22, R23 items 1 and 2), with BUF's canonical form. -/
structure Inv (s : State) : Prop where
  bufWf : Memory.wf s.buf = true
  curLe : s.cur.toNat ≤ 128
  unseededEmpty : s.status.seeded = false → s.cur = 128
  phaseIdle : s.phase = .idle
  statusLegal : s.status.Legal

/-- A command that generates would execute: seeded and not faulted (R134). -/
def Ready (s : State) : Prop := s.status.fault = false ∧ s.status.seeded = true

/-- No ALU request is pending and reset is not asserted: the next step takes a command. -/
def TakesCommands (s : State) : Prop := s.rst = false ∧ s.alu.req = none

/-- The byte `BUF[a]` reads as the same before and after, at every address. -/
def SameBuf (s t : State) : Prop := ∀ a, Memory.read t.buf a = Memory.read s.buf a

/-- The generator's registers S, O, CTR are the same (transients apart). -/
def SameRegs (g h : Gen) : Prop := g.s = h.s ∧ g.o = h.o ∧ g.ctr = h.ctr

/-! ### The byte stream -/

/-- The block that the next ROUND of these registers returns, as 128 bytes (R106, R107). -/
def blockOf (c : Config) (g : Gen) : List Byte := blockBytes (roundUnpack c g).1

/-- The registers after `n` rounds, each unpacked. -/
def genAfter (c : Config) : Nat → Gen → Gen
  | 0, g => g
  | n + 1, g => genAfter c n (roundUnpack c g).2

/-- How many unconsumed bytes BUF holds (R15). -/
def buffered (s : State) : Nat := 128 - s.cur.toNat

/-- Byte `p` of `stream(q)` (R120): `BUF[CUR..127] ++ B1 ++ B2 ++ ...` -/
def streamByte (c : Config) (s : State) (p : Nat) : Byte :=
  if p < buffered s then Memory.lookup s.buf (s.cur.toNat + p)
  else (blockOf c (genAfter c ((p - buffered s) / 128) s.gen)).getD ((p - buffered s) % 128) 0

/-- The first `n` bytes of the stream. -/
def streamBytes (c : Config) (s : State) (n : Nat) : List Byte := (List.range n).map (streamByte c s)

/-- The rounds that taking `n` bytes runs (R122): `ceil((n - d) / 128)` with `d = min(n, 128 - CUR)`. -/
def roundsFor (s : State) (n : Nat) : Nat := (n - min n (buffered s) + 127) / 128

/-- CUR once `n` bytes have been taken (R113 to R115). -/
def cursorAfter (s : State) (n : Nat) : Nat :=
  if n ≤ buffered s then s.cur.toNat + n
  else if (n - buffered s) % 128 = 0 then 128 else (n - buffered s) % 128

/-! ### Runs of commands -/

/-- The byte-stream commands (R120). -/
def isByteStream (i : Instr) : Bool :=
  match i with
  | .rdb => true
  | .fill _ => true
  | .nxt32 => true
  | .nxt64 => true
  | .seed _ _ _ _ => false
  | .rndu => false
  | .vadd => false
  | .vxor => false
  | .vsrl _ => false
  | .vperm32 _ => false
  | .vsplat => false

/-- How many bytes of the stream a byte-stream command takes (R119: RDB as `fill 1`, NXT32 as `fill 4`, NXT64 as `fill 8`). -/
def bytesTaken (i : Instr) : Nat :=
  match i with
  | .rdb => 1
  | .fill len => len.toNat
  | .nxt32 => 4
  | .nxt64 => 8
  | .seed _ _ _ _ => 0
  | .rndu => 0
  | .vadd => 0
  | .vxor => 0
  | .vsrl _ => 0
  | .vperm32 _ => 0
  | .vsplat => 0

/-- The bytes a list of commands takes. -/
def totalTaken (is : List Instr) : Nat := (is.map bytesTaken).sum

/-- The commands of a list, one after the other (R40). -/
def execAll : List Instr → State → Res
  | [], s => .next s
  | i :: is, s => andThen (exec i s) (execAll is)

/-- The end of a good run (R161): no fault, and no command byte left over. -/
def GoodEnd (s : State) : Prop := s.status.fault = false ∧ s.cmd = []

/-- `s_lo(i)` of R91: the seed word that goes with key word `K[4i]`. -/
def seedLow (i : Fin 4) : Fin 4 := (⟨0, 2, 2, 0⟩ : Quad (Fin 4)).get i

/-- `s_hi(i)` of R91: the seed word that goes with key word `K[4i+2]`. -/
def seedHigh (i : Fin 4) : Fin 4 := (⟨1, 3, 3, 1⟩ : Quad (Fin 4)).get i

/-! ### What cannot be told apart -/

/-- The same engine as far as any later command can tell (R119): S, O, CTR, CUR, STATUS and the live cells. -/
def SameLive (s t : State) : Prop :=
  SameRegs s.gen t.gen ∧ s.cur = t.cur ∧ s.status = t.status ∧
    ∀ a, s.cur.toNat ≤ a → a < 128 → Memory.read s.buf a = Memory.read t.buf a

/-- Equal but for what the spec says no command reads before writing it: T, U, W and REM (R22), the dead cells of BUF
(R23 item 4), and, on an engine that is not seeded, S, O and CTR (R24, R132). -/
structure Agree (s t : State) : Prop where
  regs : s.status.seeded = true → SameRegs s.gen t.gen
  live : ∀ a, s.cur.toNat ≤ a → a < 128 → Memory.read s.buf a = Memory.read t.buf a
  cur : s.cur = t.cur
  status : s.status = t.status
  phase : s.phase = t.phase
  alu : s.alu = t.alu
  cmd : s.cmd = t.cmd
  resp : s.resp = t.resp
  rst : s.rst = t.rst

/-- The same outcome of a step, up to `Agree`. -/
def AgreeRes (x y : Res) : Prop :=
  match x, y with
  | .next s, .next t => Agree s t
  | .fault r, .fault q => r = q
  | .refused r, .refused q => r = q
  | _, _ => False

/-! ### The engine and its host -/

/-- What can happen next: a step of the engine, or an action of the host between two steps (R160). -/
inductive Event where
  | engine
  | host (a : HostAction)
deriving DecidableEq, Repr

/-- The state an event leads to. -/
def happen (e : Event) (s : State) : Res :=
  match e with
  | .engine => step s
  | .host a => .next (hostAct a s)

end Sys2Proof.Machine
end

