-- ==== Sys2Proof/Certificates/Slice0/Obligations.lean ====
section
/-! DEFINITION. The statements about the engine, each named after what it says; OBLIGATIONS.json lists them with the rules of
spec/ they rest on. -/

open Sys2Proof Sys2Proof.Machine

/-! ### The vector-lane ALU -/

/-- R71. VADD adds lane by lane modulo 2^64, whatever stands in the control-word fields it ignores, and changes only the
result bus. -/
def Obligations.VaddAddsEachLaneModulo : Prop :=
  ∀ (s : State) (tsel : BitVec 1) (shamt : BitVec 6),
    decodeAlu (controlWord tsel shamt 0) = .request .vadd ∧
    ∃ t, exec .vadd s = .next t ∧
      (∀ i, (t.alu.r.get i).toNat = ((s.alu.a.get i).toNat + (s.alu.b.get i).toNat) % 2 ^ 64) ∧
      t = { s with alu := { s.alu with r := t.alu.r } }

/-- R72. VXOR is exclusive or on each of the 256 bits, and changes only the result bus. -/
def Obligations.VxorXorsEachBit : Prop :=
  ∀ (s : State) (tsel : BitVec 1) (shamt : BitVec 6),
    decodeAlu (controlWord tsel shamt 1) = .request .vxor ∧
    ∃ t, exec .vxor s = .next t ∧
      (∀ i j, (t.alu.r.get i).getLsbD j = ((s.alu.a.get i).getLsbD j ^^ (s.alu.b.get i).getLsbD j)) ∧
      t = { s with alu := { s.alu with r := t.alu.r } }

/-- R73. VSRL by `n` in 0..63 is `floor(lane / 2^n)` in each lane, with `n` taken from bits 8:3 of the control word, and
changes only the result bus. -/
def Obligations.VsrlDividesEachLane : Prop :=
  ∀ (s : State) (tsel : BitVec 1) (n : BitVec 6),
    decodeAlu (controlWord tsel n 2) = .request (.vsrl n) ∧
    ∃ t, exec (.vsrl n) s = .next t ∧
      (∀ i, (t.alu.r.get i).toNat = (s.alu.a.get i).toNat / 2 ^ n.toNat) ∧
      t = { s with alu := { s.alu with r := t.alu.r } }

/-- R74. VSPLAT puts the scalar in every lane, and changes only the result bus. -/
def Obligations.VsplatCopiesScalar : Prop :=
  ∀ (s : State) (tsel : BitVec 1) (shamt : BitVec 6),
    decodeAlu (controlWord tsel shamt 4) = .request .vsplat ∧
    ∃ t, exec .vsplat s = .next t ∧ (∀ i, t.alu.r.get i = s.alu.x) ∧
      t = { s with alu := { s.alu with r := t.alu.r } }

/-- R78. VPERM32 by PERM_A and by PERM_B, written out in halves as the rule writes it, and changing only the result bus;
each table undoes the other. The tables' values are the spec's general knowledge (log entry 3). -/
def Obligations.Vperm32MovesHalves : Prop :=
  ∀ (s : State) (shamt : BitVec 6),
    decodeAlu (controlWord 0 shamt 3) = .request (.vperm32 .permA) ∧
    decodeAlu (controlWord 1 shamt 3) = .request (.vperm32 .permB) ∧
    (∃ t, exec (.vperm32 .permA) s = .next t ∧
      t.alu.r =
        ⟨joinHalves (lowHalf s.alu.a.e1) (highHalf s.alu.a.e2),
         joinHalves (lowHalf s.alu.a.e2) (highHalf s.alu.a.e3),
         joinHalves (lowHalf s.alu.a.e3) (highHalf s.alu.a.e0),
         joinHalves (lowHalf s.alu.a.e0) (highHalf s.alu.a.e1)⟩ ∧
      t = { s with alu := { s.alu with r := t.alu.r } }) ∧
    (∃ t, exec (.vperm32 .permB) s = .next t ∧
      t.alu.r =
        ⟨joinHalves (lowHalf s.alu.a.e2) (highHalf s.alu.a.e3),
         joinHalves (lowHalf s.alu.a.e3) (highHalf s.alu.a.e0),
         joinHalves (lowHalf s.alu.a.e0) (highHalf s.alu.a.e1),
         joinHalves (lowHalf s.alu.a.e1) (highHalf s.alu.a.e2)⟩ ∧
      t = { s with alu := { s.alu with r := t.alu.r } }) ∧
    (∀ a, vperm32 Config.engine (vperm32 Config.engine a .permB) .permA = a ∧
      vperm32 Config.engine (vperm32 Config.engine a .permA) .permB = a)

/-- R77, R81. For any two tables of which the second undoes the first, permuting by one and then the other is the identity;
and table B of the engine gives table A's result rotated by one lane. -/
def Obligations.InverseTablesUndoPermutation : Prop :=
  (∀ (v : Vec) (P Q : PermTable), (∀ e, P.get (Q.get e) = e) → perm32 (perm32 v P) Q = v) ∧
  (∀ (v : Vec) (i : Fin 4),
    (vperm32 Config.engine v .permB).get i = (vperm32 Config.engine v .permA).get (i + 1))

/-- R76. Element `e` of the 8 x 32 view is bits `32*e+31 : 32*e` of the flat value, even elements the low halves and odd
elements the high halves; the inverse view makes lane `i` of any eight elements from elements `2*i` and `2*i + 1`, and gives
a vector back from its own. -/
def Obligations.HalvesAreFlatBits : Prop :=
  ∀ v : Vec,
    (∀ e : Fin 8, half v e = (flat v).extractLsb' (32 * e.val) 32) ∧
    (∀ i : Fin 4, half v ⟨2 * i.val, by omega⟩ = (v.get i).extractLsb' 0 32 ∧
      half v ⟨2 * i.val + 1, by omega⟩ = (v.get i).extractLsb' 32 32 ∧
      (v.get i).toNat =
        (half v ⟨2 * i.val, by omega⟩).toNat + 2 ^ 32 * (half v ⟨2 * i.val + 1, by omega⟩).toNat) ∧
    ofHalves (halves v) = v ∧
    ∀ (h : Oct Half) (i : Fin 4), ((ofHalves h).get i).toNat =
      (h.get ⟨2 * i.val, by omega⟩).toNat + 2 ^ 32 * (h.get ⟨2 * i.val + 1, by omega⟩).toNat

/-- R79. The five ALU requests are pure and total: they write no register of the engine (every register, every byte of BUF,
both channels and STATUS are as before), raise nothing, and their result depends on the operand buses and the control word
alone, whatever else the engine holds. -/
def Obligations.AluRequestsWriteOnlyResultBus : Prop :=
  (∀ (i : Instr) (s q : State), i.isCommand = false → s.alu.a = q.alu.a → s.alu.b = q.alu.b → s.alu.x = q.alu.x →
    ∃ t r, exec i s = .next t ∧ exec i q = .next r ∧ t.alu.r = r.alu.r) ∧
  ∀ (i : Instr) (s t : State), i.isCommand = false → exec i s = .next t →
    t.gen = s.gen ∧ SameBuf s t ∧ t.cur = s.cur ∧ t.status = s.status ∧ t.rem = s.rem ∧ t.phase = s.phase ∧
    t.cmd = s.cmd ∧ t.resp = s.resp ∧ t.rst = s.rst ∧
    t.alu.req = s.alu.req ∧ t.alu.a = s.alu.a ∧ t.alu.b = s.alu.b ∧ t.alu.x = s.alu.x

/-- R59, U6. A request with `aluop` 5, 6 or 7 is refused, whatever its other fields. That it is looked at before the command
channel, and that the refusal leaves it pending, is the model's choice (log entry 5). -/
def Obligations.ReservedAluOpsAreRefused : Prop :=
  ∀ (s : State) (ctl : BitVec 10), s.rst = false → s.alu.req = some ctl →
    5 ≤ (ctl.extractLsb' 0 3).toNat → step s = .refused (.reservedAluOp (ctl.extractLsb' 0 3))

/-! ### The round generator -/

/-- R100 to R105. One ROUND: S[1] and S[3] take the old counter, CTR steps by INC, U and T are the shifted and permuted
copies of that S, the new S is T + U, the vectors returned are the old O, and the new O mixes U, T and the new S; in the
engine the increment is 1, 3, 5, 7 and the shifts are 1 and 3. -/
def Obligations.RoundFollowsItsSixSteps : Prop :=
  ∀ (c : Config) (g : Gen),
    let s1 : Quad Vec := ⟨g.s.e0, vadd g.s.e1 g.ctr, g.s.e2, vadd g.s.e3 g.ctr⟩
    let r := oneRound c g
    r.1 = g.o ∧
    r.2.ctr = vadd g.ctr c.inc ∧
    r.2.u = ⟨vsrl s1.e0 c.shiftEven, vsrl s1.e1 c.shiftOdd, vsrl s1.e2 c.shiftEven, vsrl s1.e3 c.shiftOdd⟩ ∧
    r.2.t = ⟨perm32 s1.e0 c.permA, perm32 s1.e1 c.permB, perm32 s1.e2 c.permA, perm32 s1.e3 c.permB⟩ ∧
    (∀ k, r.2.s.get k = vadd (r.2.t.get k) (r.2.u.get k)) ∧
    r.2.o.get 0 = vxor (r.2.u.get 0) (r.2.t.get 1) ∧
    r.2.o.get 1 = vxor (r.2.u.get 2) (r.2.t.get 3) ∧
    r.2.o.get 2 = vxor (r.2.s.get 0) (r.2.s.get 3) ∧
    r.2.o.get 3 = vxor (r.2.s.get 2) (r.2.s.get 1) ∧
    r.2.w = g.w ∧
    (c = Config.engine → c.inc = ⟨1, 3, 5, 7⟩ ∧ c.shiftEven = 1 ∧ c.shiftOdd = 3)

/-- R109. One ROUND is the nineteen ALU requests of the listing (eleven of them, three of step 1, four of step 4 and four of
step 6, VADD or VXOR), with the control words of spec/30_encoding.md section 9, served in order; the other eight are unary
and bus `b` of theirs is driven to zero (spec/93_implementation_defined.md U8). -/
def Obligations.RoundIsNineteenRequests : Prop :=
  roundListing.length = 19 ∧
  (roundListing.filter fun q => decodeAlu q.ctl == .request .vadd).length = 7 ∧
  (roundListing.filter fun q => decodeAlu q.ctl == .request .vxor).length = 4 ∧
  (∀ q ∈ roundListing, q.ctl ∈ [0x000, 0x001, 0x00A, 0x01A, 0x003, 0x203]) ∧
  (∀ q ∈ roundListing, decodeAlu q.ctl = .request .vadd ∨ decodeAlu q.ctl = .request .vxor ∨ q.b = none) ∧
  (∀ (c : Config) (g : Gen), busB c g none = ⟨0, 0, 0, 0⟩) ∧
  ∀ (c : Config) (g : Gen), c.wf = true → serveAll c roundListing g = some (oneRound c g).2

/-- R106, R107. Byte `32*g + 8*i + m` of the block made of four returned vectors is byte `m` of lane `3 - i` of vector
`g`, and a block has 128 bytes. -/
def Obligations.BlockByteIsReversedLaneByte : Prop :=
  ∀ (ret : Quad Vec),
    (blockBytes (unpack ret)).length = 128 ∧
    (∀ g i : Fin 4, ((unpack ret).get g).get i = (ret.get g).get i.rev) ∧
    ∀ (g i : Fin 4) (m : Nat), m < 8 →
      (blockBytes (unpack ret)).getD (32 * g.val + 8 * i.val + m) 0 =
        ((ret.get g).get i.rev).extractLsb' (8 * m) 8

/-- R13, R19. From a zero counter, lane `i` of CTR after `n` rounds is `n * (2*i + 1)` modulo 2^64, for every key schedule
and every pair of tables. -/
def Obligations.CounterCountsRounds : Prop :=
  ∀ (c : Config) (g : Gen) (n : Nat) (i : Fin 4), c.wf = true → g.ctr = vsplat 0 →
    ((genAfter c n g).ctr.get i).toNat = n * (2 * i.val + 1) % 2 ^ 64

/-- R108. RNDU on a ready engine emits the block of the vectors O held before, runs one round, and leaves BUF, CUR and all
else alone; on an engine that is not seeded it raises NOT_SEEDED(0x02). What W and REM hold afterwards is the model's choice
(R22 leaves it open, log entry 13). -/
def Obligations.RnduEmitsPreviousRound : Prop :=
  ∀ s : State,
    (Ready s → ∃ t, exec .rndu s = .next t ∧
      t.resp = s.resp ++ blockBytes (unpack s.gen.o) ∧
      SameRegs t.gen (oneRound Config.engine s.gen).2 ∧ t.gen.w = unpack s.gen.o ∧
      t.cur = s.cur ∧ SameBuf s t ∧ t.status = s.status ∧ t.rem = s.rem ∧ t.phase = s.phase ∧
      t.alu = s.alu ∧ t.cmd = s.cmd ∧ t.rst = s.rst) ∧
    (s.status.fault = false → s.status.seeded = false →
      exec .rndu s = .next { s with status := ⟨false, true, .notSeeded, 0x02⟩ }) ∧
    ∀ rest, decodeCommand (0x02 :: rest) = .command .rndu 1

/-- R108, R155. RNDU in the middle of a byte stream: the bytes already buffered stay and come next, and the block RNDU
emitted is missing from the stream after them. -/
def Obligations.RnduSkipsOneBlockOfTheStream : Prop :=
  ∀ s t : State, Ready s → exec .rndu s = .next t →
    (∀ p, p < buffered s → streamByte Config.engine t p = streamByte Config.engine s p) ∧
    (∀ p, buffered s ≤ p → streamByte Config.engine t p = streamByte Config.engine s (p + 128))

/-! ### SEED -/

/-- R91. The lanes of the four initial state vectors. -/
def Obligations.SeedExpansionLanes : Prop :=
  ∀ (c : Config) (w : Quad Word) (i : Fin 4),
    let v := (expandSeed c w.e0 w.e1 w.e2 w.e3).get i
    v.get 0 = c.key i 3 ∧ v.get 1 = c.key i 2 ^^^ w.get (seedHigh i) ∧
    v.get 2 = c.key i 1 ∧ v.get 3 = c.key i 0 ^^^ w.get (seedLow i)

/-- R93. The warm-up: each iteration is a ROUND, whose returned vectors are dropped, and then the cross assignment from the O
that this ROUND left, the last iteration included; in the engine there are thirteen. -/
def Obligations.WarmUpCrossAssigns : Prop :=
  (∀ (c : Config) (g : Gen), warmUp c 0 g = g) ∧
  (∀ (c : Config) (g : Gen) (n : Nat),
    let h := (oneRound c (warmUp c n g)).2
    warmUp c (n + 1) g = { h with s := ⟨h.o.e3, h.o.e2, h.o.e1, h.o.e0⟩ }) ∧
  Config.engine.warmup = 13

/-- R90, R92, R94. SEED on any engine that is not faulted, seeded or not: the expanded seed with O and CTR zero, thirteen
warm-up iterations, CUR = 128, SEEDED = 1; nothing emitted, and BUF and all else as before. On a faulted engine it does
nothing. That W and REM are kept, and that T and U hold what the last warm-up ROUND wrote, is the model's choice (R22 leaves
it open, log entry 13). -/
def Obligations.SeedStartsNewStream : Prop :=
  ∀ (s : State) (a b d e : Word), (s.status.fault = true → exec (.seed a b d e) s = .next s) ∧
    (s.status.fault = false → ∃ t, exec (.seed a b d e) s = .next t ∧
      t.gen = warmUp Config.engine 13
        { s.gen with
          s := expandSeed Config.engine a b d e
          o := ⟨⟨0, 0, 0, 0⟩, ⟨0, 0, 0, 0⟩, ⟨0, 0, 0, 0⟩, ⟨0, 0, 0, 0⟩⟩
          ctr := ⟨0, 0, 0, 0⟩ } ∧
      t.cur = 128 ∧ t.status = { s.status with seeded := true } ∧
      t.gen.w = s.gen.w ∧ SameBuf s t ∧ t.rem = s.rem ∧ t.phase = s.phase ∧ t.alu = s.alu ∧ t.cmd = s.cmd ∧
      t.resp = s.resp ∧ t.rst = s.rst)

/-- R95. What holds after SEED whatever the seed: CTR = [13, 39, 65, 91], S[k] = O[3-k], CUR = 128, SEEDED = 1 and no
fault; the next ROUND returns the O of the last warm-up round; and `n` rounds later lane `i` of CTR is
`(13 + n) * (2*i + 1)`. -/
def Obligations.AfterSeedWhateverTheSeed : Prop :=
  ∀ (s t : State) (a b d e : Word), s.status.fault = false → exec (.seed a b d e) s = .next t →
    t.gen.ctr = ⟨13, 39, 65, 91⟩ ∧
    t.gen.s.e0 = t.gen.o.e3 ∧ t.gen.s.e1 = t.gen.o.e2 ∧ t.gen.s.e2 = t.gen.o.e1 ∧ t.gen.s.e3 = t.gen.o.e0 ∧
    t.cur = 128 ∧ t.status.seeded = true ∧ t.status.fault = false ∧
    (oneRound Config.engine t.gen).1 = t.gen.o ∧
    ∀ (n : Nat) (i : Fin 4),
      ((genAfter Config.engine n t.gen).ctr.get i).toNat = (13 + n) * (2 * i.val + 1) % 2 ^ 64

/-- R96. SEED cannot fail for any operand value, and two SEEDs with the same operands leave the same S, O, CTR and CUR,
whatever the two engines held before. -/
def Obligations.SeedForgetsThePast : Prop :=
  ∀ (s q : State) (a b d e : Word), s.status.fault = false → q.status.fault = false →
    ∃ t r, exec (.seed a b d e) s = .next t ∧ exec (.seed a b d e) q = .next r ∧
      SameRegs t.gen r.gen ∧ t.cur = r.cur

/-! ### The byte stream -/

/-- R111. RDB: on an empty buffer one round runs, its block fills BUF and byte 0 of it is emitted, leaving CUR = 1; with a
byte in BUF that byte is emitted, CUR advances and no round runs, also from 127 to 128; NOT_SEEDED(0x03) if not seeded.
That REM is kept, and T, U and W where no round runs, is the model's choice (R22 leaves it open and R121 gives RDB REM <- 1,
log entry 13). -/
def Obligations.RdbRefillsLazily : Prop :=
  ∀ s : State, Memory.wf s.buf = true →
    (Ready s → s.cur = 128 → ∃ t, exec .rdb s = .next t ∧
      t.cur = 1 ∧ t.resp = s.resp ++ [(blockOf Config.engine s.gen).getD 0 0] ∧
      SameRegs t.gen (oneRound Config.engine s.gen).2 ∧
      (∀ a, a < 128 → Memory.read t.buf a = some ((blockOf Config.engine s.gen).getD a 0)) ∧
      t.status = s.status ∧ t.rem = s.rem ∧ t.phase = s.phase ∧ t.alu = s.alu ∧ t.cmd = s.cmd ∧ t.rst = s.rst) ∧
    (Ready s → s.cur.toNat < 128 → ∃ t, exec .rdb s = .next t ∧
      t.cur.toNat = s.cur.toNat + 1 ∧ t.resp = s.resp ++ [Memory.lookup s.buf s.cur.toNat] ∧
      t.gen = s.gen ∧ SameBuf s t ∧
      t.status = s.status ∧ t.rem = s.rem ∧ t.phase = s.phase ∧ t.alu = s.alu ∧ t.cmd = s.cmd ∧ t.rst = s.rst) ∧
    (s.status.fault = false → s.status.seeded = false →
      exec .rdb s = .next { s with status := ⟨false, true, .notSeeded, 0x03⟩ }) ∧
    ∀ rest, decodeCommand (0x03 :: rest) = .command .rdb 1

/-- Log entry 7. With CUR above 128, which no run reaches, RDB and a FILL that still owes bytes to the tail stop at the
read outside BUF. -/
def Obligations.CursorOutsideBufferFaults : Prop :=
  ∀ (s : State) (len : Word), Ready s → 128 < s.cur.toNat →
    exec .rdb s = .fault (.bufAddress s.cur.toNat) ∧
    (len.toNat % 128 ≠ 0 → exec (.fill len) s = .fault (.bufAddress s.cur.toNat)) ∧
    (len.toNat % 128 = 0 → ∃ t, exec (.fill len) s = .next t ∧ t.cur = s.cur)

/-- R112 to R115, R122. FILL on a ready engine, for every length: it emits exactly the first `len` bytes of the stream, runs
`ceil((len - d) / 128)` rounds, leaves CUR where the phases leave it, writes BUF only if the tail refills it (then all
128 cells, with the block of the last round), and changes nothing else. That REM ends 0, and what T, U and W hold, is the
model's choice (R22 leaves it open, log entry 13). -/
def Obligations.FillEmitsExactlyLen : Prop :=
  ∀ (s : State) (len : Word), Ready s → s.cur.toNat ≤ 128 → Memory.wf s.buf = true →
    ∃ t, exec (.fill len) s = .next t ∧
      t.resp = s.resp ++ streamBytes Config.engine s len.toNat ∧
      t.resp.length = s.resp.length + len.toNat ∧
      t.gen = genAfter Config.engine (roundsFor s len.toNat) s.gen ∧
      t.cur.toNat = cursorAfter s len.toNat ∧
      ((len.toNat - buffered s) % 128 = 0 → SameBuf s t) ∧
      ((len.toNat - buffered s) % 128 ≠ 0 → ∀ a, a < 128 →
        Memory.read t.buf a =
          some ((blockOf Config.engine (genAfter Config.engine (roundsFor s len.toNat - 1) s.gen)).getD a 0)) ∧
      t.status = s.status ∧ t.rem = 0 ∧ t.phase = .idle ∧ t.alu = s.alu ∧ t.cmd = s.cmd ∧ t.rst = s.rst

/-- R116. `fill 0` on a seeded engine emits nothing and changes nothing: no register, no byte of BUF, no channel (the
transient REM, which the spec leaves open between commands, holds 0 after it, and T, U and W are kept: the model's choice,
log entry 13). -/
def Obligations.FillZeroIsNoOperation : Prop :=
  ∀ s : State, Ready s → s.phase = .idle → exec (.fill 0) s = .next { s with rem := 0 }

/-- R120. Every byte-stream command that takes `n` bytes emits the first `n` bytes of the stream and leaves a state whose
stream is the old one without them; BUF is rewritten only by a refill, and STATUS, the command channel and the ALU port are
untouched. That RDB keeps REM and the others end with REM = 0, and what T, U and W hold, is the model's choice (R22 leaves it
open, log entry 13). -/
def Obligations.CommandsConsumeTheStream : Prop :=
  ∀ (i : Instr) (s : State), isByteStream i = true → Ready s → s.cur.toNat ≤ 128 → Memory.wf s.buf = true →
    s.phase = .idle →
    ∃ t, exec i s = .next t ∧
      t.resp = s.resp ++ streamBytes Config.engine s (bytesTaken i) ∧
      (∀ p, streamByte Config.engine t p = streamByte Config.engine s (bytesTaken i + p)) ∧
      t.cur.toNat = cursorAfter s (bytesTaken i) ∧
      t.gen = genAfter Config.engine (roundsFor s (bytesTaken i)) s.gen ∧
      ((bytesTaken i - buffered s) % 128 = 0 → SameBuf s t) ∧
      ((bytesTaken i - buffered s) % 128 ≠ 0 → ∀ a, a < 128 →
        Memory.read t.buf a =
          some ((blockOf Config.engine (genAfter Config.engine (roundsFor s (bytesTaken i) - 1) s.gen)).getD a 0)) ∧
      t.rem = (if i = .rdb then s.rem else 0) ∧
      t.status = s.status ∧ t.phase = s.phase ∧ t.alu = s.alu ∧ t.cmd = s.cmd ∧ t.rst = s.rst

/-- R120. The position law: SEED and then byte-stream commands that take `T` bytes together end with CUR, CTR, the rounds
run and the bytes emitted decided by the seed and by `T` alone. -/
def Obligations.PositionLaw : Prop :=
  ∀ (s : State) (a b d e : Word) (is : List Instr), s.status.fault = false → Memory.wf s.buf = true →
    s.phase = .idle → (∀ i ∈ is, isByteStream i = true) →
    ∃ q t, exec (.seed a b d e) s = .next q ∧ execAll is q = .next t ∧
      t.resp = s.resp ++ streamBytes Config.engine q (totalTaken is) ∧
      SameRegs t.gen (genAfter Config.engine ((totalTaken is + 127) / 128) q.gen) ∧
      t.cur.toNat = (if totalTaken is % 128 = 0 then 128 else totalTaken is % 128) ∧
      ∀ i : Fin 4, (t.gen.ctr.get i).toNat =
        (13 + (totalTaken is + 127) / 128) * (2 * i.val + 1) % 2 ^ 64

/-- R119. Chunking invariance: from any ready state, two sequences of byte-stream commands that take the same number of
bytes emit the same bytes and leave the same S, O, CTR, CUR, STATUS and live cells. -/
def Obligations.ChunkingInvariance : Prop :=
  ∀ (s : State) (is js : List Instr), Ready s → Inv s → (∀ i ∈ is, isByteStream i = true) →
    (∀ j ∈ js, isByteStream j = true) → totalTaken is = totalTaken js →
    ∃ t u, execAll is s = .next t ∧ execAll js s = .next u ∧ t.resp = u.resp ∧ SameLive t u

/-- R119 with spec/92_eei_decisions.md section 5: one fill and the same fill cut in two, for every configuration. -/
def Obligations.FillSplitsForEveryConfig : Prop :=
  ∀ (c : Config) (s : State) (m n : Word), m.toNat + n.toNat < 2 ^ 64 → s.cur.toNat ≤ 128 →
    Memory.wf s.buf = true →
    ∃ t u v, fill c m s = .next t ∧ fill c n t = .next u ∧ fill c (m + n) s = .next v ∧
      u.resp = v.resp ∧ SameLive u v

/-- R121. The transition table, fired row by row from the acceptance row until PHASE is IDLE again, ends in the state FILL
ends in. -/
def Obligations.PhaseTableRefinesFill : Prop :=
  ∀ (c : Config) (s : State) (len : Word), s.cur.toNat ≤ 128 → Memory.wf s.buf = true →
    ∃ n t, phaseRun c n (acceptFill len s) = .next t ∧ fill c len s = .next t ∧ t.phase = .idle

/-- R111, R121. RDB is `fill 1`: the same bytes and the same state, but that FILL leaves REM = 0 and RDB leaves it as it
was. That difference is the model's choice (R22 leaves REM open between commands, and R121 would give RDB REM <- 1, log
entry 13). -/
def Obligations.RdbIsFillOne : Prop :=
  ∀ s : State, Ready s → s.cur.toNat ≤ 128 → Memory.wf s.buf = true → s.phase = .idle →
    ∃ t, exec .rdb s = .next t ∧ exec (.fill 1) s = .next { t with rem := 0 }

/-- R117. NXT32 makes the state change and emits the bytes of `fill 4`; its result is those four bytes read little-endian;
NOT_SEEDED(0x05) if not seeded. -/
def Obligations.Nxt32ReadsFourBytes : Prop :=
  ∀ s : State,
    (Ready s → s.cur.toNat ≤ 128 → Memory.wf s.buf = true →
      ∃ t, exec .nxt32 s = .next t ∧ exec (.fill 4) s = .next t ∧
        t.resp = s.resp ++ streamBytes Config.engine s 4 ∧
        (nxt32Result s t).toNat =
          (streamByte Config.engine s 0).toNat + 2 ^ 8 * (streamByte Config.engine s 1).toNat +
          2 ^ 16 * (streamByte Config.engine s 2).toNat + 2 ^ 24 * (streamByte Config.engine s 3).toNat) ∧
    (s.status.fault = false → s.status.seeded = false →
      exec .nxt32 s = .next { s with status := ⟨false, true, .notSeeded, 0x05⟩ }) ∧
    ∀ rest, decodeCommand (0x05 :: rest) = .command .nxt32 1

/-- R118. NXT64 makes the state change and emits the bytes of `fill 8`; byte `m` of its result is byte `m` of the stream;
where BUF holds the block of sixteen words and CUR is `8*j` it returns word `j`; NOT_SEEDED(0x06) if not seeded. -/
def Obligations.Nxt64ReadsEightBytes : Prop :=
  ∀ s : State,
    (Ready s → s.cur.toNat ≤ 128 → Memory.wf s.buf = true →
      ∃ t, exec .nxt64 s = .next t ∧ exec (.fill 8) s = .next t ∧
        t.resp = s.resp ++ streamBytes Config.engine s 8 ∧
        (∀ m, m < 8 → (nxt64Result s t).extractLsb' (8 * m) 8 = streamByte Config.engine s m)) ∧
    (s.status.fault = false → s.status.seeded = false →
      exec .nxt64 s = .next { s with status := ⟨false, true, .notSeeded, 0x06⟩ }) ∧
    (∀ (w : Words16) (j : Nat), Ready s → Memory.wf s.buf = true → j < 16 → s.cur.toNat = 8 * j →
      (∀ a, a < 128 → Memory.read s.buf a = some ((blockBytes w).getD a 0)) →
      ∃ t, exec .nxt64 s = .next t ∧ nxt64Result s t = (wordList w).getD j 0 ∧ t.cur.toNat = 8 * j + 8 ∧
        SameRegs t.gen s.gen) ∧
    ∀ rest, decodeCommand (0x06 :: rest) = .command .nxt64 1

/-- R34, R8. Little-endian words: `le64` and `le64_inv` are inverse to each other, and byte `m` of a word is its bits
`8*m+7 : 8*m`. -/
def Obligations.LittleEndianRoundTrips : Prop :=
  (∀ w : Word, le64Inv (le64 w) = w) ∧
  (∀ bs : List Byte, bs.length = 8 → le64 (le64Inv bs) = bs) ∧
  (∀ (w : Word) (m : Nat), m < 8 → ((le64 w).getD m 0).toNat = w.toNat / 2 ^ (8 * m) % 2 ^ 8)

/-! ### Faults -/

/-- R132. RNDU, RDB, FILL (of any length), NXT32 and NXT64 on an engine that is not seeded raise NOT_SEEDED with the
command's own opcode byte, and change nothing but FAULT, CAUSE and FINFO; SEED there raises nothing. -/
def Obligations.NotSeededIsPrecise : Prop :=
  (∀ (s : State) (a b d e : Word), s.status.fault = false → s.status.seeded = false →
    ∃ t, exec (.seed a b d e) s = .next t ∧ t.status = ⟨true, false, s.status.cause, s.status.finfo⟩) ∧
  ∀ (i : Instr) (op : Byte) (s : State), s.status.fault = false → s.status.seeded = false →
    ((i = .rndu ∧ op = 0x02) ∨ (i = .rdb ∧ op = 0x03) ∨ ((∃ len, i = .fill len) ∧ op = 0x04) ∨
      (i = .nxt32 ∧ op = 0x05) ∨ (i = .nxt64 ∧ op = 0x06)) →
    exec i s = .next { s with status := { s.status with fault := true, cause := .notSeeded, finfo := op } }

/-- R131. An illegal opcode byte at the head of the command channel is consumed, alone, and raises ILLEGAL_OPCODE with that
byte; nothing else changes. -/
def Obligations.IllegalOpcodeIsPrecise : Prop :=
  ∀ (s : State) (op : Byte) (rest : List Byte), TakesCommands s → s.status.fault = false →
    s.cmd = op :: rest → (op.toNat = 0 ∨ 7 ≤ op.toNat) →
    step s = .next
      { s with cmd := rest, status := { s.status with fault := true, cause := .illegalOpcode, finfo := op } }

/-- R137. A faulted engine consumes every complete command by its length, SEED and illegal bytes included, and does nothing
else. -/
def Obligations.FaultedEngineDiscards : Prop :=
  ∀ (s : State) (op : Byte) (rest : List Byte), TakesCommands s → s.status.fault = true →
    s.cmd = op :: rest → commandLength op ≤ s.cmd.length →
    step s = .next { s with cmd := s.cmd.drop (commandLength op) }

/-- R136, R150, R160. No step and no host action but the release of reset changes STATUS once FAULT is 1. That reset clears
STATUS at the release and not when it is asserted, and that releasing a reset that is not asserted does nothing, is the
model's choice (log entry 12). -/
def Obligations.OnlyResetClearsAFault : Prop :=
  ∀ (e : Event) (s t : State), s.status.fault = true → happen e s = .next t →
    t.status = s.status ∨
      (e = .host .releaseReset ∧ s.rst = true ∧ t.status = ⟨false, false, .none, 0⟩)

/-- R94, R131, R132, R134, R135, R150, R160. Whatever happens, STATUS changes only in four ways: a step that takes a SEED
from the channel sets SEEDED, with CUR = 128; a step that takes an illegal opcode byte enters ILLEGAL_OPCODE with that byte;
a step that takes RNDU, RDB, FILL, NXT32 or NXT64 while SEEDED = 0 enters NOT_SEEDED with the command's opcode byte, each
with FAULT clear before; or the host releases an asserted reset. That reset clears STATUS at the release is the model's
choice (log entry 12), and so is that a pending ALU request goes before the channel (log entry 5). -/
def Obligations.StatusChangesOnlyAsSaid : Prop :=
  ∀ (e : Event) (s t : State), happen e s = .next t →
    t.status = s.status ∨
    (e = .engine ∧ TakesCommands s ∧ s.status.fault = false ∧
      ((∃ a b c d n, decodeCommand s.cmd = .command (.seed a b c d) n ∧
          t.status = { s.status with seeded := true } ∧ t.cur = 128) ∨
        (∃ op, decodeCommand s.cmd = .illegal op ∧
          t.status = { s.status with fault := true, cause := .illegalOpcode, finfo := op }) ∨
        (∃ i n, decodeCommand s.cmd = .command i n ∧ (i = .rndu ∨ isByteStream i = true) ∧
          s.status.seeded = false ∧
          t.status = { s.status with fault := true, cause := .notSeeded, finfo := s.cmd.headD 0 }))) ∨
    (e = .host .releaseReset ∧ s.rst = true ∧ t.status = ⟨false, false, .none, 0⟩)

/-- R16, R130. The twelve status lines: SEEDED bit 0, FAULT bit 1, CAUSE bits 3:2, FINFO bits 11:4, with the codes of the
causes. -/
def Obligations.StatusLinesLayout : Prop :=
  ∀ s : State,
    (statusLines s).getLsbD 0 = s.status.seeded ∧ (statusLines s).getLsbD 1 = s.status.fault ∧
    (statusLines s).extractLsb' 2 2 = s.status.cause.code ∧ (statusLines s).extractLsb' 4 8 = s.status.finfo ∧
    Status.ofWord (statusLines s) = s.status ∧
    (s.status.cause.code = 0 ↔ s.status.cause = .none) ∧
    (s.status.cause.code = 1 ↔ s.status.cause = .illegalOpcode) ∧
    (s.status.cause.code = 2 ↔ s.status.cause = .notSeeded)

/-! ### Decoding, the command channel and the step -/

/-- R64. Decoding the encoding of any instruction gives it back: a command with the number of its bytes, whatever follows on
the channel; an ALU request from its control word. -/
def Obligations.DecodeUndoesEncode : Prop :=
  ∀ i : Instr,
    match encode i with
    | .bytes bs => ∀ rest, decodeCommand (bs ++ rest) = .command i bs.length
    | .control ctl => decodeAlu ctl = .request i

/-- R64. Encoding what the decoder read gives back the bytes it consumed: every command has exactly one encoding. -/
def Obligations.EncodeUndoesDecode : Prop :=
  ∀ (c : List Byte) (i : Instr) (n : Nat), decodeCommand c = .command i n →
    encode i = .bytes (c.take n) ∧ n ≤ c.length ∧ n = commandLength (c.headD 0)

/-- R56, R60. The illegal opcodes are exactly 0x00 and 0x07 to 0xFF, each one byte long. -/
def Obligations.IllegalOpcodesExactly : Prop :=
  ∀ (op : Byte) (rest : List Byte),
    (decodeCommand (op :: rest) = .illegal op ↔ (op.toNat = 0 ∨ 7 ≤ op.toNat)) ∧
    ((op.toNat = 0 ∨ 7 ≤ op.toNat) → commandLength op = 1)

/-- R57, R33. While a command is incomplete the engine has no step; once its bytes are there, bytes after it make no
difference to what is decoded. -/
def Obligations.IncompleteCommandWaits : Prop :=
  (∀ s : State, TakesCommands s → (s.cmd = [] ∨ s.cmd.length < commandLength (s.cmd.headD 0)) →
    step s = .refused .awaitingCommand) ∧
  (∀ c rest : List Byte, decodeCommand c ≠ .wait → decodeCommand (c ++ rest) = decodeCommand c)

/-- A few words written out from the spec's encodings (spec/30_encoding.md section 9) decode to what they stand for. -/
def Obligations.WorkedEncodingsDecode : Prop :=
  decodeCommand [0x04, 0x82, 0, 0, 0, 0, 0, 0, 0] = .command (.fill 130) 9 ∧
  decodeCommand [0x05, 0x06, 0x07] = .command .nxt32 1 ∧
  decodeCommand [0x07] = .illegal 0x07 ∧
  decodeCommand [0x04, 0x02, 0x00, 0x00] = .wait ∧
  decodeAlu 0x01A = .request (.vsrl 3) ∧
  decodeAlu 0x203 = .request (.vperm32 .permB)

/-- R5, R33, R64. One step: with a complete command at the head of the channel, its bytes are consumed and the step is `exec`
of it. The second clause is the model's choice (log entry 5), on the encoding of R58: with an ALU request pending, whatever
the channel and FAULT hold, the request is taken off the port and the step is `exec` of it. So is the premise of the first
clause that no request is pending. -/
def Obligations.StepRunsDecodedInstruction : Prop :=
  (∀ (s : State) (i : Instr) (n : Nat), TakesCommands s → decodeCommand s.cmd = .command i n →
    step s = exec i { s with cmd := s.cmd.drop n }) ∧
  (∀ (s : State) (i : Instr) (ctl : BitVec 10), s.rst = false → s.alu.req = some ctl →
    decodeAlu ctl = .request i → step s = exec i { s with alu := { s.alu with req := none } })

/-- R33, R40. A channel that holds the encodings of a list of commands runs them in order, one a step, and what it leaves is
the sequential composition of their meanings, with the channel empty. -/
def Obligations.ChannelRunsCommandsInOrder : Prop :=
  ∀ (is : List Instr) (s : State), TakesCommands s → (∀ i ∈ is, i.isCommand = true) →
    Host.Core.run Sys2Proof.core is.length { s with cmd := is.flatMap commandBytes } =
      execAll is { s with cmd := [] }

/-! ### Reset, invariants, and what stays hidden -/

/-- R24, R150. While reset is asserted there is no step; its release leaves CUR = 128, STATUS = 0, PHASE = IDLE and both
channels empty, whatever the engine held, and so does `State.reset`. -/
def Obligations.ResetLeavesEmptyUnseededEngine : Prop :=
  (∀ s : State, s.rst = true → step s = .refused .heldInReset ∧
    (hostAct .releaseReset s).cur = 128 ∧ statusLines (hostAct .releaseReset s) = 0 ∧
    (hostAct .releaseReset s).phase = .idle ∧ (hostAct .releaseReset s).cmd = [] ∧
    (hostAct .releaseReset s).resp = [] ∧ (hostAct .releaseReset s).rst = false) ∧
  State.reset.cur = 128 ∧ statusLines State.reset = 0 ∧ State.reset.phase = .idle ∧
  State.reset.cmd = [] ∧ State.reset.resp = []

/-- The invariant holds at reset. -/
def Obligations.ResetMeetsTheInvariants : Prop := Inv State.reset

/-- R22, R23, R15, R133. Every step and every host action keeps the invariants: BUF canonical, CUR at most 128, CUR = 128
while not seeded, PHASE = IDLE between commands, and STATUS legal (never CONFIG_INVARIANT). -/
def Obligations.EventsKeepTheInvariants : Prop :=
  ∀ (e : Event) (s t : State), Inv s → happen e s = .next t → Inv t

/-- R139. From a state that meets the invariants no step stops with a fault, and it is refused only for the three reasons
the spec gives: reset asserted, a command not complete, a reserved `aluop`. Which of them comes first is the model's choice
(log entry 5). -/
def Obligations.NoCommandFails : Prop :=
  ∀ s : State, Inv s →
    (∀ r, step s ≠ .fault r) ∧
    (∀ r, step s = .refused r →
      (s.rst = true ∧ r = .heldInReset) ∨
      (TakesCommands s ∧ decodeCommand s.cmd = .wait ∧ r = .awaitingCommand) ∨
      (∃ ctl, s.alu.req = some ctl ∧ 5 ≤ (ctl.extractLsb' 0 3).toNat ∧ r = .reservedAluOp (ctl.extractLsb' 0 3)))

/-- R22, R23, R24, R132. Nothing the engine does depends on T, U, W and REM as they stand between commands, on the dead
cells of BUF, or, before the first SEED, on S, O and CTR: two engines that meet the invariants and agree on all else take the
same step, emit the same bytes, and agree again. So nothing rests on the values the model gives these at reset (log entries 1
and 2). -/
def Obligations.HiddenStateIsNeverObserved : Prop :=
  (∀ s t : State, Inv s → Inv t → Agree s t → AgreeRes (step s) (step t)) ∧
  (∀ (a : HostAction) (s t : State), Agree s t → Agree (hostAct a s) (hostAct a t))

/-- R3. A machine is built only from a record that meets the configuration invariant, and from the engine's own. -/
def Obligations.ConfigInvariantAtConstruction : Prop :=
  (∀ c d : Config, Config.build c = some d →
    d = c ∧ c.bufBytes = c.blockBytes ∧ c.blockBytes = c.blockWords * 8 ∧
    c.blockWords * 8 = c.nOut * c.lanes * (c.laneBits / 8) ∧ c.bufBytes = 128) ∧
  Config.build Config.engine = some Config.engine
end

