-- ==== Sys2Proof/Laws/Quad.lean ====
section
/-! SUPPORT. The small lemmas of `Quad` and `Oct`: element access after construction and after replacement, and
extensionality by elements. -/

namespace Sys2Proof

theorem Fin.forall_four {p : Fin 4 → Prop} : (∀ i, p i) ↔ p 0 ∧ p 1 ∧ p 2 ∧ p 3 :=
  ⟨fun h => ⟨h 0, h 1, h 2, h 3⟩, fun ⟨h0, h1, h2, h3⟩ i => by
    match i with
    | 0 => exact h0
    | 1 => exact h1
    | 2 => exact h2
    | 3 => exact h3⟩

theorem Fin.forall_eight {p : Fin 8 → Prop} :
    (∀ i, p i) ↔ p 0 ∧ p 1 ∧ p 2 ∧ p 3 ∧ p 4 ∧ p 5 ∧ p 6 ∧ p 7 :=
  ⟨fun h => ⟨h 0, h 1, h 2, h 3, h 4, h 5, h 6, h 7⟩, fun ⟨h0, h1, h2, h3, h4, h5, h6, h7⟩ i => by
    match i with
    | 0 => exact h0
    | 1 => exact h1
    | 2 => exact h2
    | 3 => exact h3
    | 4 => exact h4
    | 5 => exact h5
    | 6 => exact h6
    | 7 => exact h7⟩

variable {α : Type}

@[simp] theorem Quad.get_zero (q : Quad α) : q.get 0 = q.e0 := rfl
@[simp] theorem Quad.get_one (q : Quad α) : q.get 1 = q.e1 := rfl
@[simp] theorem Quad.get_two (q : Quad α) : q.get 2 = q.e2 := rfl
@[simp] theorem Quad.get_three (q : Quad α) : q.get 3 = q.e3 := rfl

@[simp] theorem Quad.get_ofFn (f : Fin 4 → α) (i : Fin 4) : (Quad.ofFn f).get i = f i :=
  Fin.forall_four (p := fun i => (Quad.ofFn f).get i = f i) |>.2 ⟨rfl, rfl, rfl, rfl⟩ i

@[simp] theorem Quad.ofFn_e0 (f : Fin 4 → α) : (Quad.ofFn f).e0 = f 0 := rfl
@[simp] theorem Quad.ofFn_e1 (f : Fin 4 → α) : (Quad.ofFn f).e1 = f 1 := rfl
@[simp] theorem Quad.ofFn_e2 (f : Fin 4 → α) : (Quad.ofFn f).e2 = f 2 := rfl
@[simp] theorem Quad.ofFn_e3 (f : Fin 4 → α) : (Quad.ofFn f).e3 = f 3 := rfl

theorem Quad.ext_get {p q : Quad α} (h : ∀ i, p.get i = q.get i) : p = q :=
  Quad.ext (h 0) (h 1) (h 2) (h 3)

theorem Quad.get_set (q : Quad α) (i j : Fin 4) (v : α) :
    (q.set i v).get j = if j = i then v else q.get j := by
  revert i j
  simp [Fin.forall_four, Quad.set, Quad.get]

@[simp] theorem Oct.get_ofFn (f : Fin 8 → α) (e : Fin 8) : (Oct.ofFn f).get e = f e :=
  Fin.forall_eight (p := fun e => (Oct.ofFn f).get e = f e) |>.2
    ⟨rfl, rfl, rfl, rfl, rfl, rfl, rfl, rfl⟩ e

theorem Oct.ext_get {p q : Oct α} (h : ∀ e, p.get e = q.get e) : p = q :=
  Oct.ext (h 0) (h 1) (h 2) (h 3) (h 4) (h 5) (h 6) (h 7)

end Sys2Proof
end

