-- ==== Sys2Proof/Laws/Bytes.lean ====
section
/-! SUPPORT. Little-endian bytes and blocks: lengths, the inverse of `le64`, and the byte at each place of a block. -/

namespace Sys2Proof

@[simp] theorem le64_length (w : Word) : (le64 w).length = 8 := rfl

theorem leNat_append (xs ys : List Byte) : leNat (xs ++ ys) = leNat xs + 256 ^ xs.length * leNat ys := by
  induction xs with
  | nil => simp [leNat]
  | cons b bs ih => simp [leNat, ih, pow_succ]; ring

theorem leNat_lt (bs : List Byte) : leNat bs < 256 ^ bs.length := by
  induction bs with
  | nil => simp [leNat]
  | cons b bs ih =>
    have := b.isLt
    simp only [leNat, List.length_cons, pow_succ]
    omega

/-- Byte `m` of `le64 w` is `w[8*m+7 : 8*m]`. -/
theorem le64_getD (w : Word) {m : Nat} (h : m < 8) : (le64 w).getD m 0 = w.extractLsb' (8 * m) 8 := by
  interval_cases m <;> rfl

theorem leNat_le64 (w : Word) : leNat (le64 w) = w.toNat := by
  have := w.isLt
  simp only [le64, leNat, BitVec.extractLsb'_toNat, Nat.shiftRight_eq_div_pow]
  omega

/-- `le64_inv` is the inverse of `le64` (spec/00_scope.md section 5). -/
@[simp] theorem le64Inv_le64 (w : Word) : le64Inv (le64 w) = w := by
  simp [le64Inv, leNat_le64]

namespace Machine

@[simp] theorem wordList_length (w : Words16) : (wordList w).length = 16 := rfl

theorem blockBytes_eq (w : Words16) : blockBytes w = (wordList w).flatMap le64 := rfl

/-- A block is 128 bytes (spec/42_round.md R107). -/
@[simp] theorem blockBytes_length (w : Words16) : (blockBytes w).length = 128 := by
  simp [blockBytes, List.length_flatMap]

theorem flatMap_le64_getD (m : Nat) (hm : m < 8) : ∀ (ws : List Word) (j : Nat), j < ws.length →
    (ws.flatMap le64).getD (8 * j + m) 0 = (ws.getD j 0).extractLsb' (8 * m) 8
  | [], j, h => absurd h (by simp)
  | w :: ws, 0, _ => by
    have h8 : m < (le64 w).length := hm
    rw [List.flatMap_cons, List.getD_append _ _ _ _ (by simpa using h8)]
    simpa using le64_getD w hm
  | w :: ws, j + 1, h => by
    rw [List.flatMap_cons, List.getD_append_right _ _ _ _ (by simp; omega)]
    have := flatMap_le64_getD m hm ws j (by simpa using h)
    rw [le64_length, show 8 * (j + 1) + m - 8 = 8 * j + m by omega, this]
    simp

/-- Byte `8*j + m` of a block is `W[j][8*m+7 : 8*m]` (R107). -/
theorem blockBytes_getD (w : Words16) {j m : Nat} (hj : j < 16) (hm : m < 8) :
    (blockBytes w).getD (8 * j + m) 0 = ((wordList w).getD j 0).extractLsb' (8 * m) 8 :=
  flatMap_le64_getD m hm _ _ (by simpa using hj)

/-- Word `4*g + i` of a block. -/
theorem wordList_getD (w : Words16) (g i : Fin 4) :
    (wordList w).getD (4 * g.val + i.val) 0 = (w.get g).get i := by
  revert g i
  simp [Fin.forall_four]
  exact ⟨⟨rfl, rfl, rfl, rfl⟩, ⟨rfl, rfl, rfl, rfl⟩, ⟨rfl, rfl, rfl, rfl⟩, ⟨rfl, rfl, rfl, rfl⟩⟩

end Machine

end Sys2Proof
end

