-- ==== Sys2Proof/Laws/Memory.lean ====
section
/-! SUPPORT. The laws of BUF: read after write, and every write keeps the canonical form. -/

namespace Sys2Proof.Machine

theorem Memory.wfFrom_mono {lo lo' : Nat} (h : lo' ≤ lo) :
    ∀ {m : Memory}, Memory.wfFrom lo m = true → Memory.wfFrom lo' m = true
  | [], _ => rfl
  | (a, b) :: rest, hm => by
    simp only [Memory.wfFrom, Bool.and_eq_true, decide_eq_true_eq] at hm ⊢
    exact ⟨⟨⟨by omega, hm.1.1.2⟩, hm.1.2⟩, hm.2⟩

/-- No entry of a canonical memory lies below its bound. -/
theorem Memory.lookup_below {a : Nat} :
    ∀ {m : Memory} {lo : Nat}, Memory.wfFrom lo m = true → a < lo → Memory.lookup m a = unlistedByte
  | [], _, _, _ => rfl
  | (k, v) :: rest, lo, hm, ha => by
    simp only [Memory.wfFrom, Bool.and_eq_true, decide_eq_true_eq] at hm
    rw [Memory.lookup, if_neg (by omega)]
    exact Memory.lookup_below hm.2 (by omega)

theorem Memory.write_wfFrom {a : Nat} {b : Byte} (ha : a < bufBytes) :
    ∀ {m : Memory} {lo : Nat}, Memory.wfFrom lo m = true → lo ≤ a →
      Memory.wfFrom lo (Memory.write m a b) = true
  | [], lo, _, hlo => by
    unfold Memory.write
    split <;> simp_all [Memory.wfFrom]
  | (k, v) :: rest, lo, hm, hlo => by
    simp only [Memory.wfFrom, Bool.and_eq_true, decide_eq_true_eq, bne_iff_ne] at hm
    obtain ⟨⟨⟨h1, h2⟩, h3⟩, h4⟩ := hm
    unfold Memory.write
    split
    · split
      · simp [Memory.wfFrom, *]
      · rename_i hak hb
        have : a + 1 ≤ k := hak
        simp [Memory.wfFrom, *]
    · split
      · subst a
        split
        · exact Memory.wfFrom_mono (by omega) h4
        · simp [Memory.wfFrom, *]
      · have := Memory.write_wfFrom ha h4 (by omega : k + 1 ≤ a) (b := b)
        simp [Memory.wfFrom, *]

/-- Writing one byte of BUF keeps the canonical form. -/
theorem Memory.write_wf {m : Memory} {a : Nat} {b : Byte} (h : Memory.wf m = true) (ha : a < bufBytes) :
    Memory.wf (Memory.write m a b) = true := Memory.write_wfFrom ha h (Nat.zero_le a)

/-- Writing a run of bytes that fits in BUF keeps the canonical form. -/
theorem Memory.writeBytes_wf : ∀ {bs : List Byte} {m : Memory} {a : Nat},
    Memory.wf m = true → a + bs.length ≤ bufBytes → Memory.wf (Memory.writeBytes m a bs) = true
  | [], _, _, h, _ => h
  | b :: bs, m, a, h, hl => by
    simp only [List.length_cons] at hl
    exact Memory.writeBytes_wf (m := Memory.write m a b) (a := a + 1)
      (Memory.write_wf h (by omega)) (by omega)

/-- Read after write, in any canonical memory: the byte written at its address, every other byte as it was. -/
theorem Memory.lookup_write_wfFrom {a x : Nat} {b : Byte} :
    ∀ {m : Memory} {lo : Nat}, Memory.wfFrom lo m = true →
      Memory.lookup (Memory.write m a b) x = if x = a then b else Memory.lookup m x
  | [], lo, _ => by
    unfold Memory.write
    by_cases hx : x = a
    · subst hx; split <;> simp_all [Memory.lookup]
    · split <;> simp [Memory.lookup, Ne.symm hx]
  | (k, v) :: rest, lo, hm => by
    simp only [Memory.wfFrom, Bool.and_eq_true, decide_eq_true_eq, bne_iff_ne] at hm
    obtain ⟨⟨⟨h1, h2⟩, h3⟩, h4⟩ := hm
    unfold Memory.write
    by_cases hx : x = a
    · subst hx
      rw [if_pos rfl]
      split
      · rename_i hlt
        split
        · rename_i hb
          rw [Memory.lookup, if_neg (by omega), Memory.lookup_below h4 (by omega), hb]
        · simp [Memory.lookup]
      · split
        · rename_i hk
          split
          · rename_i hb
            rw [Memory.lookup_below h4 (by omega), hb]
          · simp [Memory.lookup]
        · rw [Memory.lookup, if_neg (by omega), Memory.lookup_write_wfFrom h4, if_pos rfl]
    · rw [if_neg hx]
      split
      · split
        · rfl
        · rw [Memory.lookup, if_neg (Ne.symm hx)]
      · split
        · rename_i hk
          subst hk
          split
          · rw [Memory.lookup, if_neg (Ne.symm hx)]
          · simp only [Memory.lookup, if_neg (Ne.symm hx)]
        · simp only [Memory.lookup]
          rw [Memory.lookup_write_wfFrom h4, if_neg hx]

theorem Memory.lookup_write {m : Memory} {a x : Nat} {b : Byte} (h : Memory.wf m = true) :
    Memory.lookup (Memory.write m a b) x = if x = a then b else Memory.lookup m x :=
  Memory.lookup_write_wfFrom h

/-- Read after a run of writes that fits in BUF. -/
theorem Memory.lookup_writeBytes {x : Nat} : ∀ {bs : List Byte} {m : Memory} {a : Nat},
    Memory.wf m = true → a + bs.length ≤ bufBytes →
      Memory.lookup (Memory.writeBytes m a bs) x =
        if a ≤ x ∧ x < a + bs.length then bs.getD (x - a) 0 else Memory.lookup m x
  | [], m, a, _, _ => by
    rw [Memory.writeBytes, if_neg (by simp)]
  | b :: bs, m, a, h, hl => by
    simp only [List.length_cons] at hl ⊢
    rw [Memory.writeBytes, Memory.lookup_writeBytes (Memory.write_wf h (by omega)) (by omega),
      Memory.lookup_write h]
    by_cases h1 : a + 1 ≤ x ∧ x < a + 1 + bs.length
    · rw [if_pos h1, if_pos (by omega)]
      obtain ⟨d, rfl⟩ : ∃ d, x = a + 1 + d := ⟨x - (a + 1), by omega⟩
      have e1 : a + 1 + d - (a + 1) = d := by omega
      have e2 : a + 1 + d - a = d + 1 := by omega
      rw [e1, e2, List.getD_cons_succ]
    · rw [if_neg h1]
      by_cases hx : x = a
      · subst hx
        rw [if_pos rfl, if_pos (by omega)]
        simp
      · rw [if_neg hx, if_neg (by omega)]

/-- Two canonical memories that read alike are equal data. -/
theorem Memory.eq_of_lookup_wfFrom : ∀ {m n : Memory} {lo : Nat}, Memory.wfFrom lo m = true →
    Memory.wfFrom lo n = true → (∀ a, Memory.lookup m a = Memory.lookup n a) → m = n
  | [], [], _, _, _, _ => rfl
  | [], (k, v) :: rest, lo, _, hn, h => by
    simp only [Memory.wfFrom, Bool.and_eq_true, bne_iff_ne] at hn
    have := h k
    simp only [Memory.lookup, if_true] at this
    exact absurd this.symm hn.1.2
  | (k, v) :: rest, [], lo, hm, _, h => by
    simp only [Memory.wfFrom, Bool.and_eq_true, bne_iff_ne] at hm
    have := h k
    simp only [Memory.lookup, if_true] at this
    exact absurd this hm.1.2
  | (k, v) :: rest, (k', v') :: rest', lo, hm, hn, h => by
    simp only [Memory.wfFrom, Bool.and_eq_true, decide_eq_true_eq, bne_iff_ne] at hm hn
    have hk : k = k' := by
      rcases Nat.lt_trichotomy k k' with hlt | heq | hgt
      · have := h k
        rw [Memory.lookup, if_pos rfl, Memory.lookup, if_neg (by omega),
          Memory.lookup_below hn.2 (by omega)] at this
        exact absurd this hm.1.2
      · exact heq
      · have := h k'
        rw [Memory.lookup, if_neg (by omega), Memory.lookup_below hm.2 (by omega),
          Memory.lookup, if_pos rfl] at this
        exact absurd this.symm hn.1.2
    subst hk
    have hv : v = v' := by simpa [Memory.lookup] using h k
    subst hv
    refine congrArg _ (Memory.eq_of_lookup_wfFrom hm.2 hn.2 fun a => ?_)
    by_cases ha : a = k
    · subst ha
      rw [Memory.lookup_below hm.2 (by omega), Memory.lookup_below hn.2 (by omega)]
    · simpa [Memory.lookup, Ne.symm ha] using h a

/-- The read of a cell is its lookup below 128 and nothing above. -/
theorem Memory.read_eq_some {m : Memory} {a : Nat} (h : a < 128) :
    Memory.read m a = some (Memory.lookup m a) := if_pos h

theorem Memory.read_eq_none {m : Memory} {a : Nat} (h : 128 ≤ a) : Memory.read m a = none :=
  if_neg (Nat.not_lt.2 h)

end Sys2Proof.Machine
end

