-- ==== Sys2Proof/Laws/State.lean ====
section
/-! SUPPORT. What each named update of the state does to each field, one lemma a field, all true by `rfl`: no later proof
unfolds a record update. -/

namespace Sys2Proof.Machine

variable (s : State)

/-! `emit` (R36) -/

@[simp] theorem emit_gen (bs : List Byte) : (emit bs s).gen = s.gen := rfl
@[simp] theorem emit_buf (bs : List Byte) : (emit bs s).buf = s.buf := rfl
@[simp] theorem emit_cur (bs : List Byte) : (emit bs s).cur = s.cur := rfl
@[simp] theorem emit_status (bs : List Byte) : (emit bs s).status = s.status := rfl
@[simp] theorem emit_rem (bs : List Byte) : (emit bs s).rem = s.rem := rfl
@[simp] theorem emit_phase (bs : List Byte) : (emit bs s).phase = s.phase := rfl
@[simp] theorem emit_alu (bs : List Byte) : (emit bs s).alu = s.alu := rfl
@[simp] theorem emit_cmd (bs : List Byte) : (emit bs s).cmd = s.cmd := rfl
@[simp] theorem emit_resp (bs : List Byte) : (emit bs s).resp = s.resp ++ bs := rfl
@[simp] theorem emit_rst (bs : List Byte) : (emit bs s).rst = s.rst := rfl

/-! `raise` (R135) -/

@[simp] theorem raise_gen (cause : Cause) (info : Byte) : (raise cause info s).gen = s.gen := rfl
@[simp] theorem raise_buf (cause : Cause) (info : Byte) : (raise cause info s).buf = s.buf := rfl
@[simp] theorem raise_cur (cause : Cause) (info : Byte) : (raise cause info s).cur = s.cur := rfl
@[simp] theorem raise_status (cause : Cause) (info : Byte) : (raise cause info s).status =
    { s.status with fault := true, cause := cause, finfo := info } := rfl
@[simp] theorem raise_rem (cause : Cause) (info : Byte) : (raise cause info s).rem = s.rem := rfl
@[simp] theorem raise_phase (cause : Cause) (info : Byte) : (raise cause info s).phase = s.phase := rfl
@[simp] theorem raise_alu (cause : Cause) (info : Byte) : (raise cause info s).alu = s.alu := rfl
@[simp] theorem raise_cmd (cause : Cause) (info : Byte) : (raise cause info s).cmd = s.cmd := rfl
@[simp] theorem raise_resp (cause : Cause) (info : Byte) : (raise cause info s).resp = s.resp := rfl
@[simp] theorem raise_rst (cause : Cause) (info : Byte) : (raise cause info s).rst = s.rst := rfl

/-! `driveResult` (R58) -/

@[simp] theorem driveResult_gen (v : Vec) : (driveResult v s).gen = s.gen := rfl
@[simp] theorem driveResult_buf (v : Vec) : (driveResult v s).buf = s.buf := rfl
@[simp] theorem driveResult_cur (v : Vec) : (driveResult v s).cur = s.cur := rfl
@[simp] theorem driveResult_status (v : Vec) : (driveResult v s).status = s.status := rfl
@[simp] theorem driveResult_rem (v : Vec) : (driveResult v s).rem = s.rem := rfl
@[simp] theorem driveResult_phase (v : Vec) : (driveResult v s).phase = s.phase := rfl
@[simp] theorem driveResult_alu (v : Vec) : (driveResult v s).alu = { s.alu with r := v } := rfl
@[simp] theorem driveResult_cmd (v : Vec) : (driveResult v s).cmd = s.cmd := rfl
@[simp] theorem driveResult_resp (v : Vec) : (driveResult v s).resp = s.resp := rfl
@[simp] theorem driveResult_rst (v : Vec) : (driveResult v s).rst = s.rst := rfl

/-! `consume` (R33) -/

@[simp] theorem consume_gen (n : Nat) : (consume n s).gen = s.gen := rfl
@[simp] theorem consume_buf (n : Nat) : (consume n s).buf = s.buf := rfl
@[simp] theorem consume_cur (n : Nat) : (consume n s).cur = s.cur := rfl
@[simp] theorem consume_status (n : Nat) : (consume n s).status = s.status := rfl
@[simp] theorem consume_rem (n : Nat) : (consume n s).rem = s.rem := rfl
@[simp] theorem consume_phase (n : Nat) : (consume n s).phase = s.phase := rfl
@[simp] theorem consume_alu (n : Nat) : (consume n s).alu = s.alu := rfl
@[simp] theorem consume_cmd (n : Nat) : (consume n s).cmd = s.cmd.drop n := rfl
@[simp] theorem consume_resp (n : Nat) : (consume n s).resp = s.resp := rfl
@[simp] theorem consume_rst (n : Nat) : (consume n s).rst = s.rst := rfl

/-! `acceptFill` (R121) -/

@[simp] theorem acceptFill_gen (len : Word) : (acceptFill len s).gen = s.gen := rfl
@[simp] theorem acceptFill_buf (len : Word) : (acceptFill len s).buf = s.buf := rfl
@[simp] theorem acceptFill_cur (len : Word) : (acceptFill len s).cur = s.cur := rfl
@[simp] theorem acceptFill_status (len : Word) : (acceptFill len s).status = s.status := rfl
@[simp] theorem acceptFill_rem (len : Word) : (acceptFill len s).rem = len := rfl
@[simp] theorem acceptFill_phase (len : Word) : (acceptFill len s).phase = .drain := rfl
@[simp] theorem acceptFill_alu (len : Word) : (acceptFill len s).alu = s.alu := rfl
@[simp] theorem acceptFill_cmd (len : Word) : (acceptFill len s).cmd = s.cmd := rfl
@[simp] theorem acceptFill_resp (len : Word) : (acceptFill len s).resp = s.resp := rfl
@[simp] theorem acceptFill_rst (len : Word) : (acceptFill len s).rst = s.rst := rfl

/-! `enter` (R121) -/

@[simp] theorem enter_gen (p : Phase) : (enter p s).gen = s.gen := rfl
@[simp] theorem enter_buf (p : Phase) : (enter p s).buf = s.buf := rfl
@[simp] theorem enter_cur (p : Phase) : (enter p s).cur = s.cur := rfl
@[simp] theorem enter_status (p : Phase) : (enter p s).status = s.status := rfl
@[simp] theorem enter_rem (p : Phase) : (enter p s).rem = s.rem := rfl
@[simp] theorem enter_phase (p : Phase) : (enter p s).phase = p := rfl
@[simp] theorem enter_alu (p : Phase) : (enter p s).alu = s.alu := rfl
@[simp] theorem enter_cmd (p : Phase) : (enter p s).cmd = s.cmd := rfl
@[simp] theorem enter_resp (p : Phase) : (enter p s).resp = s.resp := rfl
@[simp] theorem enter_rst (p : Phase) : (enter p s).rst = s.rst := rfl

/-! `refill` (R110) -/

@[simp] theorem refill_gen (c : Config) : (refill c s).gen = (roundUnpack c s.gen).2 := rfl
@[simp] theorem refill_buf (c : Config) : (refill c s).buf =
    Memory.writeBytes s.buf 0 (blockBytes (roundUnpack c s.gen).1) := by
  simp only [refill]
@[simp] theorem refill_cur (c : Config) : (refill c s).cur = 0 := rfl
@[simp] theorem refill_status (c : Config) : (refill c s).status = s.status := rfl
@[simp] theorem refill_rem (c : Config) : (refill c s).rem = s.rem := rfl
@[simp] theorem refill_phase (c : Config) : (refill c s).phase = s.phase := rfl
@[simp] theorem refill_alu (c : Config) : (refill c s).alu = s.alu := rfl
@[simp] theorem refill_cmd (c : Config) : (refill c s).cmd = s.cmd := rfl
@[simp] theorem refill_resp (c : Config) : (refill c s).resp = s.resp := rfl
@[simp] theorem refill_rst (c : Config) : (refill c s).rst = s.rst := rfl

/-! `rndu` (R108) -/

@[simp] theorem rndu_gen (c : Config) : (rndu c s).gen = (roundUnpack c s.gen).2 := rfl
@[simp] theorem rndu_buf (c : Config) : (rndu c s).buf = s.buf := rfl
@[simp] theorem rndu_cur (c : Config) : (rndu c s).cur = s.cur := rfl
@[simp] theorem rndu_status (c : Config) : (rndu c s).status = s.status := rfl
@[simp] theorem rndu_rem (c : Config) : (rndu c s).rem = s.rem := rfl
@[simp] theorem rndu_phase (c : Config) : (rndu c s).phase = s.phase := rfl
@[simp] theorem rndu_alu (c : Config) : (rndu c s).alu = s.alu := rfl
@[simp] theorem rndu_cmd (c : Config) : (rndu c s).cmd = s.cmd := rfl
@[simp] theorem rndu_resp (c : Config) : (rndu c s).resp = s.resp ++ blockBytes (roundUnpack c s.gen).1 := rfl
@[simp] theorem rndu_rst (c : Config) : (rndu c s).rst = s.rst := rfl

/-! `seed` (R90) -/

@[simp] theorem seed_buf (c : Config) (a b d e : Word) : (seed c a b d e s).buf = s.buf := by
  unfold seed; rfl
@[simp] theorem seed_cur (c : Config) (a b d e : Word) : (seed c a b d e s).cur = 128 := by
  unfold seed; rfl
@[simp] theorem seed_status (c : Config) (a b d e : Word) : (seed c a b d e s).status =
    { s.status with seeded := true } := by
  unfold seed; rfl
@[simp] theorem seed_rem (c : Config) (a b d e : Word) : (seed c a b d e s).rem = s.rem := by
  unfold seed; rfl
@[simp] theorem seed_phase (c : Config) (a b d e : Word) : (seed c a b d e s).phase = s.phase := by
  unfold seed; rfl
@[simp] theorem seed_alu (c : Config) (a b d e : Word) : (seed c a b d e s).alu = s.alu := by
  unfold seed; rfl
@[simp] theorem seed_cmd (c : Config) (a b d e : Word) : (seed c a b d e s).cmd = s.cmd := by
  unfold seed; rfl
@[simp] theorem seed_resp (c : Config) (a b d e : Word) : (seed c a b d e s).resp = s.resp := by
  unfold seed; rfl
@[simp] theorem seed_rst (c : Config) (a b d e : Word) : (seed c a b d e s).rst = s.rst := by
  unfold seed; rfl

/-! `releaseReset` (R150) -/

@[simp] theorem releaseReset_gen : (releaseReset s).gen = s.gen := rfl
@[simp] theorem releaseReset_buf : (releaseReset s).buf = s.buf := rfl
@[simp] theorem releaseReset_cur : (releaseReset s).cur = 128 := rfl
@[simp] theorem releaseReset_status : (releaseReset s).status = ⟨false, false, .none, 0⟩ := rfl
@[simp] theorem releaseReset_rem : (releaseReset s).rem = s.rem := rfl
@[simp] theorem releaseReset_phase : (releaseReset s).phase = .idle := rfl
@[simp] theorem releaseReset_alu : (releaseReset s).alu = { s.alu with req := none } := rfl
@[simp] theorem releaseReset_cmd : (releaseReset s).cmd = [] := rfl
@[simp] theorem releaseReset_resp : (releaseReset s).resp = [] := rfl
@[simp] theorem releaseReset_rst : (releaseReset s).rst = false := rfl

end Sys2Proof.Machine
end

