-- ==== Sys2Proof/Laws/Round.lean ====
section
/-! SUPPORT. The round generator: what a round returns, which registers decide its result, and iterated rounds. -/

namespace Sys2Proof.Machine

variable (c : Config)

/-! Lanes of the ALU's results -/

@[simp] theorem vadd_get (a b : Vec) (i : Fin 4) : (vadd a b).get i = a.get i + b.get i :=
  Quad.get_ofFn _ i

@[simp] theorem vxor_get (a b : Vec) (i : Fin 4) : (vxor a b).get i = a.get i ^^^ b.get i :=
  Quad.get_ofFn _ i

@[simp] theorem vsrl_get (a : Vec) (n : BitVec 6) (i : Fin 4) : (vsrl a n).get i = a.get i >>> n.toNat :=
  Quad.get_ofFn _ i

@[simp] theorem vsplat_get (x : Word) (i : Fin 4) : (vsplat x).get i = x := Quad.get_ofFn _ i

/-- The low half of a joined lane. -/
@[simp] theorem lowHalf_joinHalves (h l : Half) : lowHalf (joinHalves h l) = l := by
  ext i hi
  have := BitVec.getLsbD_append (x := h) (y := l) (i := i)
  simp only [lowHalf, joinHalves, BitVec.getElem_extractLsb', Nat.zero_add]
  exact this.trans (by simp [hi])

/-- The high half of a joined lane. -/
@[simp] theorem highHalf_joinHalves (h l : Half) : highHalf (joinHalves h l) = h := by
  ext i hi
  have := BitVec.getLsbD_append (x := h) (y := l) (i := 32 + i)
  simp only [highHalf, joinHalves, BitVec.getElem_extractLsb']
  exact this.trans (by simp [hi])

/-- A lane is its two halves joined. -/
@[simp] theorem joinHalves_halves (w : Word) : joinHalves (highHalf w) (lowHalf w) = w := by
  simp only [highHalf, lowHalf, joinHalves]
  ext i hi
  rw [BitVec.getElem_append]
  split
  · simp [BitVec.getLsbD_eq_getElem hi]
  · rw [BitVec.getElem_extractLsb', ← BitVec.getLsbD_eq_getElem hi]
    congr 1
    omega

@[simp] theorem halves_ofHalves (h : Oct Half) : halves (ofHalves h) = h := by
  simp [halves, ofHalves]

@[simp] theorem ofHalves_halves (v : Vec) : ofHalves (halves v) = v := by
  simp [halves, ofHalves]

/-- PERM32 as a gather on the 8 x 32 view (spec/40_vector_alu.md R77). -/
@[simp] theorem half_perm32 (v : Vec) (P : PermTable) (e : Fin 8) :
    half (perm32 v P) e = half v (P.get e) := by
  simp [perm32, half]

/-! One round -/

/-- ROUND returns the pipeline registers from before it (spec/42_round.md R105). -/
@[simp] theorem oneRound_ret (g : Gen) : (oneRound c g).1 = g.o := rfl

@[simp] theorem oneRound_ctr (g : Gen) : (oneRound c g).2.ctr = vadd g.ctr c.inc := rfl

@[simp] theorem oneRound_w (g : Gen) : (oneRound c g).2.w = g.w := rfl

/-- The registers after a round are decided by S, O and CTR: the transients are written before they are read
(spec/10_state.md R22). -/
theorem oneRound_congr {g h : Gen} (e : SameRegs g h) : SameRegs (oneRound c g).2 (oneRound c h).2 := by
  obtain ⟨s, o, ctr, t, u, w⟩ := g
  obtain ⟨s', o', ctr', t', u', w'⟩ := h
  obtain ⟨rfl, rfl, rfl⟩ := e
  exact ⟨rfl, rfl, rfl⟩

@[simp] theorem roundUnpack_words (g : Gen) : (roundUnpack c g).1 = unpack g.o := rfl

@[simp] theorem roundUnpack_ctr (g : Gen) : (roundUnpack c g).2.ctr = vadd g.ctr c.inc := rfl

theorem roundUnpack_regs (g : Gen) : SameRegs (roundUnpack c g).2 (oneRound c g).2 := ⟨rfl, rfl, rfl⟩

theorem SameRegs.symm {g h : Gen} (e : SameRegs g h) : SameRegs h g := ⟨e.1.symm, e.2.1.symm, e.2.2.symm⟩

theorem SameRegs.trans {g h k : Gen} (e : SameRegs g h) (f : SameRegs h k) : SameRegs g k :=
  ⟨e.1.trans f.1, e.2.1.trans f.2.1, e.2.2.trans f.2.2⟩

theorem roundUnpack_congr {g h : Gen} (e : SameRegs g h) :
    SameRegs (roundUnpack c g).2 (roundUnpack c h).2 :=
  ((roundUnpack_regs c g).trans (oneRound_congr c e)).trans (roundUnpack_regs c h).symm

/-! Blocks and iterated rounds -/

theorem blockOf_eq (g : Gen) : blockOf c g = blockBytes (unpack g.o) := rfl

@[simp] theorem blockOf_length (g : Gen) : (blockOf c g).length = 128 := blockBytes_length _

theorem blockOf_congr {g h : Gen} (e : SameRegs g h) : blockOf c g = blockOf c h := by
  rw [blockOf_eq, blockOf_eq, e.2.1]

@[simp] theorem genAfter_zero (g : Gen) : genAfter c 0 g = g := rfl

theorem genAfter_succ (n : Nat) (g : Gen) : genAfter c (n + 1) g = genAfter c n (roundUnpack c g).2 := rfl

theorem genAfter_add (m n : Nat) (g : Gen) : genAfter c (m + n) g = genAfter c n (genAfter c m g) := by
  induction m generalizing g with
  | zero => rw [Nat.zero_add, genAfter_zero]
  | succ m ih => rw [Nat.succ_add, genAfter_succ, ih, genAfter_succ]

theorem genAfter_succ' (n : Nat) (g : Gen) : genAfter c (n + 1) g = (roundUnpack c (genAfter c n g)).2 := by
  rw [genAfter_add, genAfter_succ, genAfter_zero]

theorem genAfter_congr {g h : Gen} (n : Nat) (e : SameRegs g h) :
    SameRegs (genAfter c n g) (genAfter c n h) := by
  induction n generalizing g h with
  | zero => exact e
  | succ n ih => exact ih (roundUnpack_congr c e)

/-- Warm-up iterations: the registers are decided by S, O and CTR. -/
theorem warmUp_congr {g h : Gen} (n : Nat) (e : SameRegs g h) :
    SameRegs (warmUp c n g) (warmUp c n h) := by
  induction n generalizing g h with
  | zero => exact e
  | succ n ih =>
    have r := oneRound_congr c e
    exact ih ⟨by simp only [crossAssign, r.2.1], r.2.1, r.2.2⟩

/-- One warm-up iteration more, counted at the end. -/
theorem warmUp_succ (n : Nat) (g : Gen) :
    warmUp c (n + 1) g = crossAssign (oneRound c (warmUp c n g)).2 := by
  induction n generalizing g with
  | zero => rfl
  | succ n ih => rw [warmUp, ih, warmUp]

end Sys2Proof.Machine
end

