-- ==== Sys2Proof/Laws/Stream.lean ====
section
/-! SUPPORT. What the operations of the byte stream can do, each said once: the single-byte read, the loops, and the
three phases of FILL in closed form. -/

namespace Sys2Proof.Machine

variable (c : Config)

@[simp] theorem andThen_next {α β : Type} (a : α) (f : α → Answer β) : andThen (.next a) f = f a := rfl

/-- A loop that runs through the states `f 0`, ..., `f d` and then stops. -/
theorem whileDo_eq {cond : State → Bool} {body : State → Res} (f : Nat → State) :
    ∀ (d n : Nat), d ≤ n → (∀ k, k < d → cond (f k) = true ∧ body (f k) = .next (f (k + 1))) →
      (d < n → cond (f d) = false) → whileDo cond body n (f 0) = .next (f d) := by
  intro d
  induction d generalizing f with
  | zero =>
    intro n _ _ hstop
    cases n with
    | zero => rfl
    | succ n => simp only [whileDo, hstop (Nat.succ_pos n), Bool.false_eq_true, if_false]
  | succ d ih =>
    intro n hn hk hstop
    cases n with
    | zero => omega
    | succ n =>
      obtain ⟨hc, hb⟩ := hk 0 (Nat.succ_pos d)
      simp only [whileDo, hc, if_true, hb, andThen_next]
      exact ih (fun k => f (k + 1)) n (by omega) (fun k h => hk (k + 1) (by omega))
        (fun h => hstop (by omega))

/-! The single-byte read -/

theorem readAtCursor_lt {s : State} (h : s.cur.toNat < 128) :
    readAtCursor s = .next (Memory.lookup s.buf s.cur.toNat, { s with cur := s.cur + 1 }) := by
  simp only [readAtCursor, Memory.read_eq_some h]

theorem readAtCursor_ge {s : State} (h : 128 ≤ s.cur.toNat) :
    readAtCursor s = .fault (.bufAddress s.cur.toNat) := by
  simp only [readAtCursor, Memory.read_eq_none h]

theorem readByte_lt {s : State} (h : s.cur.toNat < 128) : readByte c s = readAtCursor s := by
  rw [readByte, if_neg]
  rintro e
  rw [e] at h
  exact absurd h (by decide)

theorem readByte_empty {s : State} (h : s.cur = 128) : readByte c s = readAtCursor (refill c s) := by
  rw [readByte, if_pos h]

theorem readByte_gt {s : State} (h : 128 < s.cur.toNat) :
    readByte c s = .fault (.bufAddress s.cur.toNat) := by
  rw [readByte, if_neg, readAtCursor_ge (Nat.le_of_lt h)]
  rintro e
  rw [e] at h
  exact absurd h (by decide)

/-- The state after `d` bytes have been taken from BUF at the cursor, REM counting them down. -/
def advance (d : Nat) (s : State) : State :=
  { s with
    cur := BitVec.ofNat 8 (s.cur.toNat + d)
    resp := s.resp ++ (List.range d).map fun j => Memory.lookup s.buf (s.cur.toNat + j)
    rem := BitVec.ofNat 64 (s.rem.toNat - d) }

@[simp] theorem advance_zero (s : State) : advance 0 s = s := by
  simp [advance]

theorem advance_cur {d : Nat} {s : State} (h : s.cur.toNat + d ≤ 128) :
    (advance d s).cur.toNat = s.cur.toNat + d := by
  simp only [advance, BitVec.toNat_ofNat]
  omega

theorem advance_rem (d : Nat) (s : State) : (advance d s).rem.toNat = s.rem.toNat - d := by
  have := s.rem.isLt
  simp only [advance, BitVec.toNat_ofNat]
  omega

theorem ofNat_add_one (n : Nat) : BitVec.ofNat 8 n + 1 = BitVec.ofNat 8 (n + 1) := by
  apply BitVec.eq_of_toNat_eq
  simp

theorem ofNat_sub {n k m : Nat} (hn : n < 2 ^ 64) (hk : k + m ≤ n) :
    BitVec.ofNat 64 (n - k) - BitVec.ofNat 64 m = BitVec.ofNat 64 (n - (k + m)) := by
  apply BitVec.eq_of_toNat_eq
  simp only [BitVec.toNat_sub, BitVec.toNat_ofNat]
  omega

/-- One byte more: the body of the DRAIN and TAIL loops, with a byte in BUF and a byte owed. -/
theorem takeByte_advance {d : Nat} {s : State} (hc : s.cur.toNat + d < 128) (hr : d < s.rem.toNat) :
    takeByte c (advance d s) = .next (advance (d + 1) s) := by
  have hcur : (advance d s).cur.toNat < 128 := by rw [advance_cur (by omega)]; exact hc
  rw [takeByte, emitByte, readByte_lt c hcur, readAtCursor_lt hcur, advance_cur (by omega)]
  simp only [andThen_next, emit, advance, ofNat_add_one, List.append_assoc]
  rw [show ((1 : Word)) = BitVec.ofNat 64 1 from rfl, ofNat_sub s.rem.isLt hr, List.range_succ,
    List.map_append]
  rfl

/-- Phase DRAIN takes `min(REM, 128 - CUR)` bytes (spec/43_byte_stream.md R113). -/
theorem drain_eq (s : State) : drain c s = .next (advance (min s.rem.toNat (buffered s)) s) := by
  have hw := whileDo_eq (cond := fun q => q.cur.toNat < 128 && 0 < q.rem.toNat) (body := takeByte c)
    (fun k => advance k s) (min s.rem.toNat (buffered s)) s.rem.toNat (Nat.min_le_left _ _)
    (fun k hk => ?_) (fun hd => ?_)
  · rw [advance_zero] at hw
    exact hw
  · have h1 : k < s.rem.toNat := by omega
    have h2 : s.cur.toNat + k < 128 := by simp only [buffered] at hk; omega
    refine ⟨?_, takeByte_advance c h2 h1⟩
    simp only [advance_cur (Nat.le_of_lt h2), advance_rem, Bool.and_eq_true, decide_eq_true_eq]
    omega
  · have hb : min s.rem.toNat (buffered s) = buffered s := by omega
    rw [hb]
    by_cases h : s.cur.toNat ≤ 128
    · have e : s.cur.toNat + buffered s = 128 := by simp only [buffered]; omega
      simp [advance_cur (Nat.le_of_eq e), e]
    · have e : buffered s = 0 := by simp only [buffered]; omega
      simp only [e, advance_zero, Bool.and_eq_false_iff, decide_eq_false_iff_not]
      omega

/-- The blocks of `n` successive rounds, one after the other. -/
def blocks (n : Nat) (g : Gen) : List Byte := (List.range n).flatMap fun k => blockOf c (genAfter c k g)

theorem blocks_succ (n : Nat) (g : Gen) : blocks c (n + 1) g = blocks c n g ++ blockOf c (genAfter c n g) := by
  simp [blocks, List.range_succ]

/-- The state after `k` turns of the BULK loop. -/
def bulkAfter (k : Nat) (s : State) : State :=
  { s with
    gen := genAfter c k s.gen
    resp := s.resp ++ blocks c k s.gen
    rem := BitVec.ofNat 64 (s.rem.toNat - 128 * k) }

theorem bulkAfter_rem (k : Nat) (s : State) : (bulkAfter c k s).rem.toNat = s.rem.toNat - 128 * k := by
  have := s.rem.isLt
  simp only [bulkAfter, BitVec.toNat_ofNat]
  omega

/-- Phase BULK runs `floor(REM / 128)` rounds past the buffer (R114). -/
theorem bulk_eq (s : State) : bulk c s = .next (bulkAfter c (s.rem.toNat / 128) s) := by
  have hw := whileDo_eq (cond := fun q => 128 ≤ q.rem.toNat) (body := takeBlock c)
    (fun k => bulkAfter c k s) (s.rem.toNat / 128) s.rem.toNat (Nat.div_le_self _ _)
    (fun k hk => ?_) (fun _ => ?_)
  · have e : bulkAfter c 0 s = s := by simp [bulkAfter, blocks]
    rw [e] at hw
    exact hw
  · have h : 128 * k + 128 ≤ s.rem.toNat := by omega
    refine ⟨?_, ?_⟩
    · simp only [bulkAfter_rem, decide_eq_true_eq]
      omega
    · simp only [takeBlock, emit, bulkAfter]
      rw [show ((128 : Word)) = BitVec.ofNat 64 128 from rfl, ofNat_sub s.rem.isLt h,
        ← genAfter_succ', blocks_succ, List.append_assoc]
      rfl
  · simp only [bulkAfter_rem, decide_eq_false_iff_not]
    omega

/-- Phase TAIL with nothing owed does nothing (R115). -/
theorem tail_none {s : State} (h : s.rem.toNat = 0) : tail c s = .next s := by
  rw [tail, h]
  rfl

theorem rem_ne_zero_turn {s : State} (h : 0 < s.rem.toNat) :
    tail c s = andThen (takeByte c s) (whileDo (fun q => 0 < q.rem.toNat) (takeByte c) (s.rem.toNat - 1)) := by
  obtain ⟨n, hn⟩ : ∃ n, s.rem.toNat = n + 1 := ⟨s.rem.toNat - 1, by omega⟩
  rw [tail, hn]
  simp [whileDo, h]

/-- The first turn of TAIL on an empty buffer is the turn from the refilled buffer. -/
theorem takeByte_empty {s : State} (h : s.cur = 128) : takeByte c s = takeByte c (refill c s) := by
  rw [takeByte, takeByte, emitByte, emitByte, readByte_empty c h, readByte_lt c (by simp)]

/-- Phase TAIL with REM in 1..127 on an empty buffer: one refill, then REM bytes of that block (R115). -/
theorem tail_eq {s : State} (hc : s.cur = 128) (h0 : 0 < s.rem.toNat) (h1 : s.rem.toNat < 128) :
    tail c s = .next (advance s.rem.toNat (refill c s)) := by
  have hr : (refill c s).rem = s.rem := refill_rem s c
  have hz : (refill c s).cur.toNat = 0 := by simp
  have e : tail c s = tail c (refill c s) := by
    rw [rem_ne_zero_turn c h0, rem_ne_zero_turn c (s := refill c s) (by rw [hr]; exact h0), hr,
      takeByte_empty c hc]
  have hw := whileDo_eq (cond := fun q => 0 < q.rem.toNat) (body := takeByte c)
    (fun k => advance k (refill c s)) s.rem.toNat s.rem.toNat (Nat.le_refl _)
    (fun k hk => ?_) (fun h => absurd h (Nat.lt_irrefl _))
  · rw [advance_zero] at hw
    rw [e, tail, hr]
    exact hw
  · refine ⟨?_, takeByte_advance c (by omega) (by rw [hr]; exact hk)⟩
    simp only [advance_rem, hr, decide_eq_true_eq]
    omega

/-- The cells of BUF after a refill are the bytes of the block (R110, R31). -/
theorem refill_lookup {s : State} (h : Memory.wf s.buf = true) {a : Nat} (ha : a < 128) :
    Memory.lookup (refill c s).buf a = (blockOf c s.gen).getD a 0 := by
  rw [refill_buf, Memory.lookup_writeBytes h (by simp [bufBytes]), if_pos (by simpa using ha), Nat.sub_zero,
    blockOf]

theorem refill_wf {s : State} (h : Memory.wf s.buf = true) : Memory.wf (refill c s).buf = true := by
  rw [refill_buf]
  exact Memory.writeBytes_wf h (by simp [bufBytes])

end Sys2Proof.Machine
end

