-- ==== Sys2Proof/Laws/Exec.lean ====
section
/-! SUPPORT. The checks around a command said once (spec/60_exceptions.md R134), each command's meaning as its checks
around its effect, and the fields of a control word. -/

namespace Sys2Proof

@[simp] theorem controlWord_aluop (t : BitVec 1) (n : BitVec 6) (o : BitVec 3) :
    (controlWord t n o).extractLsb' 0 3 = o := by
  revert t n o; decide +kernel

@[simp] theorem controlWord_shamt (t : BitVec 1) (n : BitVec 6) (o : BitVec 3) :
    (controlWord t n o).extractLsb' 3 6 = n := by
  revert t n o; decide +kernel

@[simp] theorem controlWord_tsel (t : BitVec 1) (n : BitVec 6) (o : BitVec 3) :
    (controlWord t n o).extractLsb' 9 1 = t := by
  revert t n o; decide +kernel

namespace Machine

/-- A command on a faulted engine is discarded (R137). -/
theorem guarded_faulted {op : Byte} {g : Bool} {body : State → Res} {s : State} (h : s.status.fault = true) :
    guarded op g body s = .next s := by
  simp [guarded, h]

/-- A generating command on an engine that is not seeded raises NOT_SEEDED (R132). -/
theorem guarded_unseeded {op : Byte} {body : State → Res} {s : State} (hf : s.status.fault = false)
    (hs : s.status.seeded = false) : guarded op true body s = .next (raise .notSeeded op s) := by
  simp [guarded, hf, hs]

/-- A command on a ready engine executes. -/
theorem guarded_ready {op : Byte} {g : Bool} {body : State → Res} {s : State} (h : Ready s) :
    guarded op g body s = body s := by
  simp [guarded, h.1, h.2]

/-- A command that does not generate executes on any engine that is not faulted. -/
theorem guarded_unfaulted {op : Byte} {body : State → Res} {s : State} (h : s.status.fault = false) :
    guarded op false body s = body s := by
  simp [guarded, h]

theorem exec_seed (a b d e : Word) (s : State) :
    exec (.seed a b d e) s = guarded 0x01 false (fun q => .next (seed Config.engine a b d e q)) s := rfl

theorem exec_rndu (s : State) :
    exec .rndu s = guarded 0x02 true (fun q => .next (rndu Config.engine q)) s := rfl

theorem exec_rdb (s : State) : exec .rdb s = guarded 0x03 true (emitByte Config.engine) s := rfl

theorem exec_fill (len : Word) (s : State) :
    exec (.fill len) s = guarded 0x04 true (fill Config.engine len) s := rfl

theorem exec_nxt32 (s : State) : exec .nxt32 s = guarded 0x05 true (fill Config.engine 4) s := rfl

theorem exec_nxt64 (s : State) : exec .nxt64 s = guarded 0x06 true (fill Config.engine 8) s := rfl

end Machine

end Sys2Proof
end

