-- ==== Sys2Proof/Laws/StreamBytes.lean ====
section
/-! SUPPORT. The byte stream as lists: a stretch of the stream inside BUF, a stretch of whole blocks, the head of a block,
and how a stretch splits in two. -/

namespace Sys2Proof.Machine

variable (c : Config)

/-- A list is the bytes at its positions. -/
theorem map_getD_range (l : List Byte) {n : Nat} (h : n ≤ l.length) :
    (List.range n).map (fun j => l.getD j 0) = l.take n := by
  apply List.ext_getElem
  · simp [h]
  · intro i h1 h2
    simp only [List.length_map, List.length_range] at h1
    have : i < l.length := by omega
    simp [List.getD_eq_getElem?_getD, this]

theorem map_range_add {α : Type} (f : Nat → α) (m n : Nat) :
    (List.range (m + n)).map f = (List.range m).map f ++ (List.range n).map fun j => f (m + j) := by
  rw [List.range_add, List.map_append, List.map_map]
  rfl

/-- A stretch of the stream in two parts. -/
theorem streamBytes_add (s : State) (m n : Nat) :
    streamBytes c s (m + n) = streamBytes c s m ++ (List.range n).map fun j => streamByte c s (m + j) :=
  map_range_add _ m n

@[simp] theorem streamBytes_length (s : State) (n : Nat) : (streamBytes c s n).length = n := by
  simp [streamBytes]

theorem streamByte_lt {s : State} {p : Nat} (h : p < buffered s) :
    streamByte c s p = Memory.lookup s.buf (s.cur.toNat + p) := if_pos h

theorem streamByte_ge {s : State} {p : Nat} (h : buffered s ≤ p) :
    streamByte c s p =
      (blockOf c (genAfter c ((p - buffered s) / 128) s.gen)).getD ((p - buffered s) % 128) 0 :=
  if_neg (Nat.not_lt.2 h)

/-- A stretch that lies in BUF. -/
theorem streamBytes_buffered {s : State} {d : Nat} (h : d ≤ buffered s) :
    streamBytes c s d = (List.range d).map fun j => Memory.lookup s.buf (s.cur.toNat + j) := by
  apply List.map_congr_left
  intro p hp
  rw [List.mem_range] at hp
  exact streamByte_lt c (by omega)

/-- Whole blocks, byte by byte. -/
theorem blocks_eq_map (g : Gen) (n : Nat) :
    blocks c n g = (List.range (128 * n)).map fun k => (blockOf c (genAfter c (k / 128) g)).getD (k % 128) 0 := by
  induction n with
  | zero => rfl
  | succ n ih =>
    rw [blocks_succ, ih, Nat.mul_succ, map_range_add]
    congr 1
    have h : ∀ j, j < 128 → (128 * n + j) / 128 = n ∧ (128 * n + j) % 128 = j := by omega
    rw [List.map_congr_left (g := fun j => (blockOf c (genAfter c n g)).getD j 0)]
    · rw [map_getD_range _ (by simp)]
      simp
    · intro j hj
      rw [List.mem_range] at hj
      rw [(h j hj).1, (h j hj).2]

/-- A stretch that drains BUF, takes `n` whole blocks and the first `r` bytes of the next. -/
theorem streamBytes_blocks (s : State) (n : Nat) {r : Nat} (hr : r ≤ 128) :
    streamBytes c s (buffered s + (128 * n + r)) =
      (List.range (buffered s)).map (fun j => Memory.lookup s.buf (s.cur.toNat + j)) ++
        (blocks c n s.gen ++ (blockOf c (genAfter c n s.gen)).take r) := by
  rw [streamBytes_add, streamBytes_buffered c (Nat.le_refl _)]
  congr 1
  rw [map_range_add, blocks_eq_map]
  congr 1
  · apply List.map_congr_left
    intro k _
    rw [streamByte_ge c (Nat.le_add_right _ _), Nat.add_sub_cancel_left]
  · rw [← map_getD_range _ (by simpa using hr)]
    apply List.map_congr_left
    intro j hj
    rw [List.mem_range] at hj
    rw [streamByte_ge c (Nat.le_add_right _ _), Nat.add_sub_cancel_left,
      show (128 * n + j) / 128 = n by omega, show (128 * n + j) % 128 = j by omega]

/-- The bytes a refilled buffer gives at its head are those of the block. -/
theorem refill_head {s : State} (h : Memory.wf s.buf = true) {r : Nat} (hr : r ≤ 128) :
    (List.range r).map (fun j => Memory.lookup (refill c s).buf ((refill c s).cur.toNat + j)) =
      (blockOf c s.gen).take r := by
  rw [← map_getD_range _ (by simpa using hr)]
  apply List.map_congr_left
  intro j hj
  rw [List.mem_range] at hj
  rw [refill_cur, show (0 : BitVec 8).toNat + j = j by simp, refill_lookup c h (by omega)]

end Sys2Proof.Machine
end

