-- ==== Sys2Proof/Laws/Fill.lean ====
section
/-! SUPPORT. FILL in closed form: the state it ends in, from which its bytes, rounds, cursor and frame are read off. -/

namespace Sys2Proof.Machine

/-- The state a FILL of `len` bytes ends in. -/
def fillEnd (c : Config) (len : Nat) (s : State) : State :=
  { s with
    gen := genAfter c (roundsFor s len) s.gen
    buf := if (len - buffered s) % 128 = 0 then s.buf
      else Memory.writeBytes s.buf 0 (blockOf c (genAfter c (roundsFor s len - 1) s.gen))
    cur := BitVec.ofNat 8 (cursorAfter s len)
    resp := s.resp ++ streamBytes c s len
    rem := 0
    phase := .idle }

/-- Phase BULK with less than a block owed does nothing (R114). -/
theorem bulk_stop (c : Config) (s : State) (h : s.rem.toNat < 128) : bulk c s = .next s := by
  rw [bulk_eq, Nat.div_eq_of_lt h]; simp [bulkAfter, blocks]

/-- CUR from its number. -/
theorem cur_eq_128 {s : State} (h : s.cur.toNat = 128) : s.cur = 128 := BitVec.eq_of_toNat_eq h

/-- FILL always completes, in the state `fillEnd` (R112 to R115, R122). -/
theorem fill_eq (c : Config) (len : Word) (s : State) (hc : s.cur.toNat ≤ 128) (hw : Memory.wf s.buf = true) :
    fill c len s = .next (fillEnd c len.toNat s) := by
  have hb : buffered (acceptFill len s) = buffered s := rfl
  have hbv : buffered s = 128 - s.cur.toNat := rfl
  rw [fill, drain_eq, andThen_next, acceptFill_rem, hb]
  rcases Nat.lt_or_ge (buffered s) len.toNat with h | h
  · rw [Nat.min_eq_right (by omega)]
    have hr : (advance (buffered s) (acceptFill len s)).rem.toNat = len.toNat - buffered s := by
      rw [advance_rem]; rfl
    rw [bulk_eq, andThen_next]
    have hr' : (enter .bulk (advance (buffered s) (acceptFill len s))).rem.toNat = len.toNat - buffered s := by
      rw [enter_rem]
      exact hr
    rw [hr']
    obtain ⟨q, r, hq, hr2, hlen⟩ : ∃ q r, (len.toNat - buffered s) / 128 = q ∧
        (len.toNat - buffered s) % 128 = r ∧ len.toNat = buffered s + (128 * q + r) := ⟨_, _, rfl, rfl, by omega⟩
    rw [hq]
    have hrr : r < 128 := by omega
    have hstream := streamBytes_blocks c s q (r := r) (by omega)
    rw [← hlen] at hstream
    by_cases h0 : r = 0
    · rw [tail_none, andThen_next]
      · simp only [fillEnd, hr2, h0, if_true, hstream]
        simp only [bulkAfter, advance, acceptFill, enter]
        congr 1
        have e1 : roundsFor s len.toNat = q := by simp only [roundsFor]; omega
        have e2 : cursorAfter s len.toNat = s.cur.toNat + buffered s := by
          simp only [cursorAfter]; rw [if_neg (by omega), hr2, if_pos h0]; omega
        rw [e1, e2]
        have e3 : BitVec.ofNat 64 ((BitVec.ofNat 64 (len.toNat - buffered s)).toNat - 128 * q) = 0 := by
          apply BitVec.eq_of_toNat_eq
          have := len.isLt
          simp only [BitVec.toNat_ofNat]
          show _ = 0
          omega
        rw [e3]
        simp
      · show (bulkAfter c _ _).rem.toNat = 0
        rw [bulkAfter_rem]
        show (advance (buffered s) (acceptFill len s)).rem.toNat - 128 * q = 0
        rw [hr]; omega
    · let s1 := advance (buffered s) (acceptFill len s)
      let s2 : State := enter .tail (bulkAfter c q (enter .bulk s1))
      have hs2c : s2.cur = 128 := cur_eq_128 (by
        show s1.cur.toNat = 128
        rw [advance_cur (by show s.cur.toNat + _ ≤ _; omega)]
        show s.cur.toNat + _ = _
        omega)
      have hs2r : s2.rem.toNat = r := by
        show (bulkAfter c q (enter .bulk s1)).rem.toNat = r
        rw [bulkAfter_rem]
        show s1.rem.toNat - _ = _
        rw [hr]; omega
      have hs2b : s2.buf = s.buf := rfl
      have hs2g : s2.gen = genAfter c q s.gen := rfl
      have ht := tail_eq c hs2c (by omega) (by omega)
      have hh := refill_head c (s := s2) hw (r := r) (by omega)
      rw [hs2r] at ht
      refine (congrArg (fun x => andThen x _) ht).trans ?_
      rw [andThen_next]
      have e1 : roundsFor s len.toNat = q + 1 := by simp only [roundsFor]; omega
      have e2 : cursorAfter s len.toNat = r := by
          simp only [cursorAfter]; rw [if_neg (by omega), hr2, if_neg h0]
      refine congrArg Host.Outcome.next ?_
      have e4 : (refill c s2).rem.toNat - r = 0 := by rw [refill_rem]; omega
      have e5 : (refill c s2).cur.toNat + r = r := by rw [refill_cur]; simp
      apply State.ext <;> simp only [enter, advance, e4, e5, hh, refill_gen, hs2g, fillEnd, hr2, h0, if_false, e1, e2,
        hstream, genAfter_succ', Nat.add_sub_cancel]
      · simp [hs2b, hs2g, blockOf]
      · rw [refill_status]; rfl
      · rfl
      · rw [refill_alu]; rfl
      · rw [refill_cmd]; rfl
      · simp [s2, s1, bulkAfter, advance, acceptFill, List.append_assoc]
      · rw [refill_rst]; rfl
  · rw [Nat.min_eq_left h]
    have hr : (advance len.toNat (acceptFill len s)).rem.toNat = 0 := by
      rw [advance_rem]; show len.toNat - len.toNat = 0; omega
    rw [bulk_stop _ _ (by rw [enter_rem]; omega), andThen_next,
      tail_none c (by rw [enter_rem, enter_rem]; exact hr), andThen_next]
    have e1 : roundsFor s len.toNat = 0 := by simp only [roundsFor]; omega
    have e2 : cursorAfter s len.toNat = s.cur.toNat + len.toNat := by
          simp only [cursorAfter]; rw [if_pos h]
    have e3 : (len.toNat - buffered s) % 128 = 0 := by omega
    simp only [fillEnd, e1, e2, e3, if_true, streamBytes_buffered c h]
    congr 1
    simp [advance, acceptFill, enter]

end Sys2Proof.Machine
end

