-- ==== Sys2Proof/Laws/Commands.lean ====
section
/-! SUPPORT. What FILL's closed form leaves (cursor, cells, the rest of the stream), and the byte-stream commands in terms
of it. -/

namespace Sys2Proof.Machine

/-- CUR stays at most 128 (spec/10_state.md R15). -/
theorem cursorAfter_le {s : State} (n : Nat) (h : s.cur.toNat ≤ 128) : cursorAfter s n ≤ 128 := by
  have hb : buffered s = 128 - s.cur.toNat := rfl
  unfold cursorAfter
  split
  · omega
  · split <;> omega

theorem fillEnd_cur (c : Config) (n : Nat) {s : State} (h : s.cur.toNat ≤ 128) :
    (fillEnd c n s).cur.toNat = cursorAfter s n := by
  have := cursorAfter_le n h
  simp only [fillEnd, BitVec.toNat_ofNat]
  omega

theorem fillEnd_wf (c : Config) (n : Nat) {s : State} (hw : Memory.wf s.buf = true) :
    Memory.wf (fillEnd c n s).buf = true := by
  simp only [fillEnd]
  split
  · exact hw
  · exact Memory.writeBytes_wf hw (by simp [bufBytes])

/-- The cells after a FILL whose tail refilled BUF: the block of the last round. -/
theorem fillEnd_lookup (c : Config) (n : Nat) {s : State} (hw : Memory.wf s.buf = true)
    (h : (n - buffered s) % 128 ≠ 0) {a : Nat} (ha : a < 128) :
    Memory.lookup (fillEnd c n s).buf a = (blockOf c (genAfter c (roundsFor s n - 1) s.gen)).getD a 0 := by
  simp only [fillEnd]
  rw [if_neg h, Memory.lookup_writeBytes hw (by simp [bufBytes]), if_pos (by simpa using ha)]
  simp

/-- The stream after a FILL is the stream before it without the bytes taken (spec/43_byte_stream.md R120). -/
theorem streamByte_fillEnd (c : Config) (n : Nat) {s : State} (hc : s.cur.toNat ≤ 128)
    (hw : Memory.wf s.buf = true) (p : Nat) : streamByte c (fillEnd c n s) p = streamByte c s (n + p) := by
  have hcur := fillEnd_cur c n hc
  have hb : buffered (fillEnd c n s) = 128 - cursorAfter s n := by rw [buffered, hcur]
  have hbs : buffered s = 128 - s.cur.toNat := rfl
  have hg : (fillEnd c n s).gen = genAfter c (roundsFor s n) s.gen := rfl
  rcases Nat.lt_or_ge p (buffered (fillEnd c n s)) with hp | hp
  · rw [streamByte_lt _ hp, hcur]
    by_cases h0 : (n - buffered s) % 128 = 0
    · have hle : n ≤ buffered s := by
        by_contra hgt
        rw [hb, cursorAfter, if_neg (by omega), if_pos h0] at hp
        omega
      have hca : cursorAfter s n = s.cur.toNat + n := if_pos hle
      rw [streamByte_lt _ (by omega), hca]
      simp only [fillEnd, h0, if_true]
      rw [Nat.add_assoc]
    · have hgt : ¬ n ≤ buffered s := by intro h; apply h0; rw [Nat.sub_eq_zero_of_le h]
      have hca : cursorAfter s n = (n - buffered s) % 128 := by rw [cursorAfter, if_neg hgt, if_neg h0]
      rw [fillEnd_lookup c n hw h0 (by omega), streamByte_ge _ (by omega), hca]
      have e1 : roundsFor s n - 1 = (n + p - buffered s) / 128 := by simp only [roundsFor]; omega
      have e2 : (n - buffered s) % 128 + p = (n + p - buffered s) % 128 := by omega
      rw [e1, e2]
  · rw [streamByte_ge _ hp, hg, ← genAfter_add]
    by_cases hle : n ≤ buffered s
    · have hca : cursorAfter s n = s.cur.toNat + n := if_pos hle
      have e0 : roundsFor s n = 0 := by simp only [roundsFor]; omega
      rw [streamByte_ge _ (by omega), hb, e0, hca, Nat.zero_add,
        show n + p - buffered s = p - (128 - (s.cur.toNat + n)) by omega]
    · have hca : cursorAfter s n = if (n - buffered s) % 128 = 0 then 128 else (n - buffered s) % 128 :=
        if_neg hle
      rw [streamByte_ge _ (by omega), hb]
      have e1 : roundsFor s n + (p - (128 - cursorAfter s n)) / 128 = (n + p - buffered s) / 128 := by
        simp only [roundsFor]
        rw [hca]
        rw [hb, hca] at hp
        split_ifs at * <;> omega
      have e2 : (p - (128 - cursorAfter s n)) % 128 = (n + p - buffered s) % 128 := by
        rw [hca]
        rw [hb, hca] at hp
        split_ifs at * <;> omega
      rw [e1, e2]

/-! The single byte -/

theorem emitByte_lt (c : Config) {s : State} (h : s.cur.toNat < 128) :
    emitByte c s =
      .next { s with cur := s.cur + 1, resp := s.resp ++ [Memory.lookup s.buf s.cur.toNat] } := by
  rw [emitByte, readByte_lt c h, readAtCursor_lt h]
  rfl

theorem emitByte_empty (c : Config) {s : State} (h : s.cur = 128) : emitByte c s = emitByte c (refill c s) := by
  rw [emitByte, emitByte, readByte_empty c h, readByte_lt c (by simp)]

theorem takeByte_gt (c : Config) {s : State} (h : 128 < s.cur.toNat) :
    takeByte c s = .fault (.bufAddress s.cur.toNat) := by
  rw [takeByte, emitByte, readByte_gt c h]
  rfl

/-- One byte emitted is a FILL of one byte, but for REM and PHASE (R111). -/
theorem emitByte_eq (c : Config) {s : State} (hc : s.cur.toNat ≤ 128) (hw : Memory.wf s.buf = true) :
    emitByte c s = .next { fillEnd c 1 s with rem := s.rem, phase := s.phase } := by
  have h1 : streamBytes c s 1 = [streamByte c s 0] := rfl
  have hb : buffered s = 128 - s.cur.toNat := rfl
  rcases Nat.lt_or_ge s.cur.toNat 128 with hl | hg
  · rw [emitByte_lt c hl]
    have e0 : roundsFor s 1 = 0 := by simp only [roundsFor]; omega
    have e1 : cursorAfter s 1 = s.cur.toNat + 1 := if_pos (by omega)
    have e2 : (1 - buffered s) % 128 = 0 := by omega
    congr 1
    simp only [fillEnd, e0, e1, e2, if_true, genAfter_zero, h1,
      streamByte_lt _ (show 0 < buffered s by omega)]
    apply State.ext <;> simp
    apply BitVec.eq_of_toNat_eq
    simp
  · have h128 := cur_eq_128 (show s.cur.toNat = 128 by omega)
    have hb0 : buffered s = 0 := by omega
    rw [emitByte_empty c h128, emitByte_lt c (by simp)]
    have e0 : roundsFor s 1 = 1 := by simp only [roundsFor, hb0]; omega
    have e1 : cursorAfter s 1 = 1 := by simp [cursorAfter, hb0]
    have e2 : ¬ (1 - buffered s) % 128 = 0 := by omega
    congr 1
    simp only [fillEnd, e0, e1, e2, if_false, h1, streamByte_ge _ (show buffered s ≤ 0 by omega)]
    apply State.ext <;> simp only [refill_gen, refill_cur, refill_resp, refill_status, refill_rem, refill_phase,
      refill_alu, refill_cmd, refill_rst, refill_buf]
    · rfl
    · rw [Nat.sub_self, genAfter_zero, blockOf]
    · rfl
    · rw [show (0 : BitVec 8).toNat = 0 from rfl, ← refill_buf, refill_lookup c hw (by omega), hb0]
      rfl

/-- What a byte-stream command on a ready engine answers (R119, R120). -/
theorem byteStream_end {i : Instr} {s : State} (hi : isByteStream i = true) (h : Ready s) (hc : s.cur.toNat ≤ 128)
    (hw : Memory.wf s.buf = true) (hp : s.phase = .idle) :
    exec i s =
      .next { fillEnd Config.engine (bytesTaken i) s with rem := if i = .rdb then s.rem else 0 } := by
  cases i <;> simp [isByteStream] at hi
  · rw [exec_rdb, guarded_ready h, emitByte_eq _ hc hw, hp]
    rfl
  · rw [exec_fill, guarded_ready h, fill_eq _ _ _ hc hw]
    rfl
  · rw [exec_nxt32, guarded_ready h, fill_eq _ _ _ hc hw]
    rfl
  · rw [exec_nxt64, guarded_ready h, fill_eq _ _ _ hc hw]
    rfl

end Sys2Proof.Machine
end

