-- ==== Sys2Proof/Laws/Frame.lean ====
section
/-! SUPPORT. What the byte-stream operations leave alone whenever they answer a next state, from every state, also one with
CUR above 128: STATUS, the ALU port, the command channel and the reset input. -/

namespace Sys2Proof.Machine

/-- STATUS, the ALU port, the command channel and the reset input are the same. -/
def SameOutside (s t : State) : Prop :=
  t.status = s.status ∧ t.alu = s.alu ∧ t.cmd = s.cmd ∧ t.rst = s.rst

theorem SameOutside.refl (s : State) : SameOutside s s := ⟨rfl, rfl, rfl, rfl⟩

theorem SameOutside.trans {s t u : State} (h : SameOutside s t) (g : SameOutside t u) : SameOutside s u :=
  ⟨g.1.trans h.1, g.2.1.trans h.2.1, g.2.2.1.trans h.2.2.1, g.2.2.2.trans h.2.2.2⟩

theorem refill_outside (c : Config) (s : State) : SameOutside s (refill c s) :=
  ⟨refill_status _ _, refill_alu _ _, refill_cmd _ _, refill_rst _ _⟩

/-- `andThen` answers next only through a next of its first part. -/
theorem andThen_eq_next {α β : Type} {o : Answer α} {f : α → Answer β} {b : β} (h : andThen o f = .next b) :
    ∃ a, o = .next a ∧ f a = .next b := by
  cases o with
  | next a => exact ⟨a, rfl, h⟩
  | fault r => cases h
  | refused r => cases h

theorem emitByte_outside {c : Config} {s t : State} (h : emitByte c s = .next t) : SameOutside s t := by
  have key : ∀ q : State, q.cur.toNat < 128 → emitByte c q = .next t → SameOutside q t := by
    intro q hq hn
    rw [emitByte_lt c hq] at hn
    cases hn
    exact ⟨rfl, rfl, rfl, rfl⟩
  rcases Nat.lt_trichotomy s.cur.toNat 128 with hl | hl | hl
  · exact key s hl h
  · rw [emitByte_empty c (cur_eq_128 hl)] at h
    exact (refill_outside c s).trans (key _ (by simp) h)
  · rw [emitByte, readByte_gt c hl] at h
    cases h

theorem takeByte_outside {c : Config} {s t : State} (h : takeByte c s = .next t) : SameOutside s t := by
  obtain ⟨q, hq, hn⟩ := andThen_eq_next h
  cases hn
  exact (emitByte_outside hq).trans ⟨rfl, rfl, rfl, rfl⟩

/-- A loop keeps what its body keeps. -/
theorem whileDo_outside {cond : State → Bool} {body : State → Res}
    (hb : ∀ s t : State, body s = .next t → SameOutside s t) :
    ∀ (n : Nat) (s t : State), whileDo cond body n s = .next t → SameOutside s t
  | 0, s, t, h => by
    cases h
    exact SameOutside.refl s
  | n + 1, s, t, h => by
    rw [whileDo] at h
    split at h
    · obtain ⟨q, hq, hn⟩ := andThen_eq_next h
      exact (hb s q hq).trans (whileDo_outside hb n q t hn)
    · cases h
      exact SameOutside.refl s

theorem fill_outside {c : Config} {len : Word} {s t : State} (h : fill c len s = .next t) : SameOutside s t := by
  obtain ⟨s1, h1, h⟩ := andThen_eq_next h
  obtain ⟨s2, h2, h⟩ := andThen_eq_next h
  obtain ⟨s3, h3, h⟩ := andThen_eq_next h
  cases h
  have block : ∀ s t : State, takeBlock c s = .next t → SameOutside s t := by
    intro s t e
    cases e
    exact ⟨rfl, rfl, rfl, rfl⟩
  have byte : ∀ s t : State, takeByte c s = .next t → SameOutside s t := fun _ _ => takeByte_outside
  have a : SameOutside (acceptFill len s) s1 := whileDo_outside byte _ _ _ h1
  have b : SameOutside (enter .bulk s1) s2 := whileDo_outside block _ _ _ h2
  have d : SameOutside (enter .tail s2) s3 := whileDo_outside byte _ _ _ h3
  exact SameOutside.trans (t := s1) a (SameOutside.trans (t := s2) b d)

end Sys2Proof.Machine
end

