-- ==== Sys2Proof/Laws/PerInstr.lean ====
section
/-! SUPPORT. Laws said of each instruction as syntax, one lemma a constructor. -/

namespace Sys2Proof.Laws.EncodedForm

/-- The form of an instruction's encoding: a command starts with a legal opcode and is as long as that opcode says
(spec/30_encoding.md R54, R60); a control word has an operation code below 5, and the fields its operation does not use
are zero (R58, R59, spec/93_implementation_defined.md U8). -/
def Statement (i : Instr) : Prop :=
  match encode i with
  | .bytes bs => bs.length = commandLength (bs.headD 0) ∧ 1 ≤ (bs.headD 0).toNat ∧ (bs.headD 0).toNat ≤ 6
  | .control ctl =>
    (ctl.extractLsb' 0 3).toNat < 5 ∧ (ctl.extractLsb' 0 3 ≠ 2 → ctl.extractLsb' 3 6 = 0) ∧
      (ctl.extractLsb' 0 3 ≠ 3 → ctl.extractLsb' 9 1 = 0)

theorem seed (seed0 seed1 seed2 seed3 : Word) : Statement (.seed seed0 seed1 seed2 seed3) := by
  simp [Statement, encode, commandLength]

theorem rndu : Statement .rndu := ⟨rfl, by decide, by decide⟩

theorem rdb : Statement .rdb := ⟨rfl, by decide, by decide⟩

theorem fill (len : Word) : Statement (.fill len) := by
  simp [Statement, encode, commandLength]

theorem nxt32 : Statement .nxt32 := ⟨rfl, by decide, by decide⟩

theorem nxt64 : Statement .nxt64 := ⟨rfl, by decide, by decide⟩

theorem vadd : Statement .vadd := by simp [Statement, encode]

theorem vxor : Statement .vxor := by simp [Statement, encode]

theorem vsrl (shamt : BitVec 6) : Statement (.vsrl shamt) := by simp [Statement, encode]

theorem vperm32 (tsel : TableSel) : Statement (.vperm32 tsel) := by simp [Statement, encode]

theorem vsplat : Statement .vsplat := by simp [Statement, encode]

end Sys2Proof.Laws.EncodedForm
end

