-- ==== Sys2Proof/Laws/Step.lean ====
section
/-! SUPPORT. The step: what the fetch can answer, said once, and a run taken one step at a time. -/

namespace Sys2Proof.Machine

/-- A run of `n + 1` steps is a step and a run of `n`. -/
theorem core_run_succ (n : Nat) (s : Sys2Proof.core.State) :
    Sys2Proof.core.run (n + 1) s = andThen (Sys2Proof.core.step s) fun t => Sys2Proof.core.run n t := by
  rw [Host.Core.run]
  cases Sys2Proof.core.step s <;> rfl

/-- With no reset and no ALU request the step takes from the command channel. -/
theorem fetch_takes {s : State} (h : TakesCommands s) : fetch s = fetchCommand s := by
  simp [fetch, h.1, h.2]

/-- The reserved operations are the only ones the ALU decoder refuses (spec/30_encoding.md R59). -/
theorem decodeAlu_reserved {ctl : BitVec 10} {o : BitVec 3} (h : decodeAlu ctl = .reserved o) :
    o = ctl.extractLsb' 0 3 ∧ 5 ≤ o.toNat := by
  revert h
  unfold decodeAlu
  generalize ctl.extractLsb' 0 3 = p
  simp only
  intro h
  repeat' split at h
  all_goals cases h
  revert o
  decide

/-- Every step is `exec` of a decoded instruction, the entry of ILLEGAL_OPCODE, or one of the three refusals; the fetch
changes only the command channel and the ALU port's request. -/
theorem step_cases (s : State) :
    (∃ i q, step s = exec i q ∧
      q = { s with cmd := q.cmd, alu := { s.alu with req := q.alu.req } }) ∨
    (∃ op q, step s = .next (illegalOpcode op q) ∧ q = { s with cmd := q.cmd }) ∨
    (s.rst = true ∧ step s = .refused .heldInReset) ∨
    (TakesCommands s ∧ decodeCommand s.cmd = .wait ∧ step s = .refused .awaitingCommand) ∨
    (∃ ctl, s.rst = false ∧ s.alu.req = some ctl ∧ 5 ≤ (ctl.extractLsb' 0 3).toNat ∧
      step s = .refused (.reservedAluOp (ctl.extractLsb' 0 3))) := by
  unfold step fetch
  rcases s.rst.eq_false_or_eq_true with hr | hr
  · exact .inr (.inr (.inl ⟨hr, by rw [if_pos hr]⟩))
  · rw [if_neg (by simp [hr])]
    cases ha : s.alu.req with
    | none =>
      simp only [fetchCommand]
      cases hd : decodeCommand s.cmd with
      | wait => exact .inr (.inr (.inr (.inl ⟨⟨hr, ha⟩, rfl, rfl⟩)))
      | command i n => exact .inl ⟨i, _, rfl, rfl⟩
      | illegal op => exact .inr (.inl ⟨op, _, rfl, rfl⟩)
    | some ctl =>
      simp only [fetchAlu]
      cases hd : decodeAlu ctl with
      | request i => exact .inl ⟨i, _, rfl, rfl⟩
      | reserved o =>
        obtain ⟨rfl, h5⟩ := decodeAlu_reserved hd
        exact .inr (.inr (.inr (.inr ⟨ctl, hr, rfl, h5, rfl⟩)))

end Sys2Proof.Machine
end

