-- ==== Sys2Proof/Tests/Slice0.lean ====
section
/-! SUPPORT. Tests of single steps and decodings, with expected values from spec/95_test_vectors.md, spec/30_encoding.md
section 9 and spec/42_round.md section 4; the refusals of WellFormed; and for every statement with hypotheses a witness
that meets them. -/

namespace Sys2Proof.Tests

open Sys2Proof.Machine

/-- Does the outcome answer a next state of which `p` holds? -/
def onNext (o : Res) (p : State → Bool) : Bool :=
  match o with
  | .next t => p t
  | .fault _ => false
  | .refused _ => false

/-- Is the outcome this refusal? -/
def refusedAs (o : Res) (r : Refusal) : Bool :=
  match o with
  | .next _ => false
  | .fault _ => false
  | .refused q => q == r

/-- The outcome is next, for a statement's hypothesis. -/
theorem exists_next {o : Res} (h : onNext o (fun _ => true) = true) : ∃ t, o = .next t := by
  cases o with
  | next t => exact ⟨t, rfl⟩
  | fault r => cases h
  | refused r => cases h

/-! ### WellFormed refuses -/

theorem test_engine_builds : Config.build Config.engine = some Config.engine := by decide

theorem test_short_buffer_refused :
    Config.sizesAgree { Config.engine with bufBytes := 64 } = false ∧
      Config.build { Config.engine with bufBytes := 64 } = none := by decide

theorem test_eight_lanes_refused :
    Config.sizesFixed { Config.engine with halves := 4 } = false ∧
      Config.build { Config.engine with halves := 4 } = none := by decide

theorem test_twelve_warmups_refused :
    Config.roundFixed { Config.engine with warmup := 12 } = false ∧
      Config.build { Config.engine with warmup := 12 } = none := by decide

theorem test_repeating_tables_refused :
    PermTable.bijective ⟨5, 2, 7, 4, 1, 6, 3, 5⟩ = false ∧
      Config.build { Config.engine with permA := ⟨5, 2, 7, 4, 1, 6, 3, 5⟩ } = none ∧
      Config.build { Config.engine with permB := ⟨0, 0, 0, 0, 0, 0, 0, 0⟩ } = none := by decide

/-! ### Decoding (spec/30_encoding.md section 9, spec/95_test_vectors.md section 9) -/

theorem test_decode_seed :
    decodeCommand
      ([0x01] ++ [0xD3, 0x08, 0xA3, 0x85, 0x88, 0x6A, 0x3F, 0x24] ++ [0x44, 0x73, 0x70, 0x03, 0x2E, 0x8A, 0x19, 0x13] ++
        [0xD0, 0x31, 0x9F, 0x29, 0x22, 0x38, 0x09, 0xA4] ++ [0x89, 0x6C, 0x4E, 0xEC, 0x98, 0xFA, 0x2E, 0x08]) =
      .command (.seed 0x243F6A8885A308D3 0x13198A2E03707344 0xA4093822299F31D0 0x082EFA98EC4E6C89) 33 := by decide

theorem test_decode_rndu : decodeCommand [0x02] = .command .rndu 1 := by decide

theorem test_decode_rdb : decodeCommand [0x03, 0x03, 0x02] = .command .rdb 1 := by decide

theorem test_decode_fill :
    decodeCommand [0x04, 0x00, 0x01, 0, 0, 0, 0, 0, 0] = .command (.fill 256) 9 ∧
    decodeCommand [0x04, 3, 3, 3, 3, 3, 3, 3, 3, 3] = .command (.fill 0x0303030303030303) 9 ∧
    decodeCommand [0x04, 0xFF, 0xFF, 0xFF, 0xFF, 0xFF, 0xFF, 0xFF, 0xFF] =
      .command (.fill 18446744073709551615) 9 := by decide

theorem test_decode_nxt32 : decodeCommand [0x05, 0x06, 0x07] = .command .nxt32 1 := by decide

theorem test_decode_nxt64 : decodeCommand [0x06, 0x07] = .command .nxt64 1 := by decide

theorem test_decode_illegal :
    decodeCommand [0x00] = .illegal 0x00 ∧ decodeCommand [0x07] = .illegal 0x07 ∧
    decodeCommand [0xFF, 0x01] = .illegal 0xFF := by decide

theorem test_decode_waits :
    decodeCommand [] = .wait ∧ decodeCommand [0x04, 0x02, 0x00, 0x00] = .wait ∧
    decodeCommand (0x01 :: List.replicate 31 0) = .wait := by decide

theorem test_decode_alu :
    decodeAlu 0b0_000000_000 = .request .vadd ∧ decodeAlu 0b0_000000_001 = .request .vxor ∧
    decodeAlu 0b0_000001_010 = .request (.vsrl 1) ∧ decodeAlu 0b0_000011_010 = .request (.vsrl 3) ∧
    decodeAlu 0b0_111111_010 = .request (.vsrl 63) ∧
    decodeAlu 0b0_000000_011 = .request (.vperm32 .permA) ∧ decodeAlu 0b1_000000_011 = .request (.vperm32 .permB) ∧
    decodeAlu 0b0_000000_100 = .request .vsplat ∧ decodeAlu 0b1_000000_101 = .reserved 5 := by decide

theorem test_table_words :
    decodeTableWord 264 (1 + 2 ^ 8 * 1 + 2 ^ 72 * 2 + 2 ^ 136 * 3 + 2 ^ 200 * 4) = some (.seed 1 2 3 4) ∧
    decodeTableWord 72 0x8204 = some (.fill 130) ∧ decodeTableWord 8 0x06 = some .nxt64 ∧
    decodeTableWord 16 0x1A = some (.vsrl 3) ∧ decodeTableWord 16 0x203 = some (.vperm32 .permB) ∧
    decodeTableWord 8 0x07 = none ∧ decodeTableWord 16 0x005 = none := by decide

/-! ### The vector-lane ALU (spec/95_test_vectors.md section 4) -/

/-- The operands `a` and `b` of section 4 on the ALU port. -/
def aluState (a b : Vec) : State := { State.reset with alu := ⟨.none, a, b, 0xDEADBEEF00000001, zeroVec⟩ }

/-- `a` of section 4. -/
def opA : Vec := ⟨0xFFFFFFFFFFFFFFFF, 1, 0x8000000000000000, 0x0123456789ABCDEF⟩

/-- `b` of section 4. -/
def opB : Vec := ⟨1, 0xFFFFFFFFFFFFFFFF, 0x8000000000000000, 0x1111111111111111⟩

/-- `v` of section 4: element `e` is the digit `e` eight times. -/
def opV : Vec := ⟨0x1111111100000000, 0x3333333322222222, 0x5555555544444444, 0x7777777766666666⟩

theorem test_vadd_wraps :
    onNext (exec .vadd (aluState opA opB)) (fun t => t.alu.r == ⟨0, 0, 0, 0x123456789ABCDF00⟩) = true := by decide

theorem test_vxor :
    onNext (exec .vxor (aluState opA opB))
      (fun t => t.alu.r == ⟨0xFFFFFFFFFFFFFFFE, 0xFFFFFFFFFFFFFFFE, 0, 0x1032547698BADCFE⟩) = true := by decide

theorem test_vsrl_by_3 :
    onNext (exec (.vsrl 3) (aluState opA opB))
      (fun t => t.alu.r == ⟨0x1FFFFFFFFFFFFFFF, 0, 0x1000000000000000, 0x002468ACF13579BD⟩) = true := by decide

theorem test_vsrl_by_63 :
    onNext (exec (.vsrl 63) (aluState opA opB)) (fun t => t.alu.r == ⟨1, 0, 1, 0⟩) = true := by decide

theorem test_vperm32_a :
    onNext (exec (.vperm32 .permA) (aluState opV opB))
      (fun t => t.alu.r ==
        ⟨0x2222222255555555, 0x4444444477777777, 0x6666666611111111, 0x0000000033333333⟩) = true := by decide

theorem test_vperm32_b :
    onNext (exec (.vperm32 .permB) (aluState opV opB))
      (fun t => t.alu.r ==
        ⟨0x4444444477777777, 0x6666666611111111, 0x0000000033333333, 0x2222222255555555⟩) = true := by decide

theorem test_vsplat :
    onNext (exec .vsplat (aluState opA opB))
      (fun t => t.alu.r ==
        ⟨0xDEADBEEF00000001, 0xDEADBEEF00000001, 0xDEADBEEF00000001, 0xDEADBEEF00000001⟩) = true := by decide

/-! ### SEED (spec/41_seed.md section 6, spec/95_test_vectors.md sections 3 and 5) -/

/-- The pipeline registers after `seed 0, 0, 0, 0`: lanes of section 3's words. -/
def warmO : Quad Vec :=
  ⟨⟨0x2BCEE75D12B468DC, 0x395A5AA7A5A4A52C, 0xE2097C3AE6822D09, 0x53AAB40FF9965D95⟩,
   ⟨0xEEE5F736A30DDB6F, 0x1BCCEF385D62F058, 0xB918FD814E74DD12, 0x42CCD98BF5FE6E6B⟩,
   ⟨0x061DF7CCD6CF8288, 0xEA1B710812F52CE0, 0x07D5C1BFD5D04453, 0xC740DA5CEAE8DB6B⟩,
   ⟨0xF103A68B34CE2D51, 0x26E0B74DB776C13A, 0x85D6DA352E3D6DD5, 0xC6F25D98F15EC762⟩⟩

/-- An engine just after `seed 0, 0, 0, 0`. -/
def warmed : State :=
  { State.reset with
    gen := { State.reset.gen with
      s := ⟨warmO.e3, warmO.e2, warmO.e1, warmO.e0⟩
      o := warmO
      ctr := ⟨0xD, 0x27, 0x41, 0x5B⟩ }
    status := ⟨true, false, .none, 0⟩ }

/-- The same engine with block 1 in BUF and CUR at `n`. -/
def midBlock (n : BitVec 8) : State := { refill Config.engine warmed with cur := n }

theorem test_seed_zero :
    onNext (exec (.seed 0 0 0 0) State.reset)
      (fun t => t.gen.o == warmO && t.gen.s.e0 == warmO.e3 && t.gen.ctr == ⟨0xD, 0x27, 0x41, 0x5B⟩ &&
        t.status.word == 0x001 && t.cur == 128) = true := by decide +kernel

/-- `seed 1, 2, 3, 4`: which seed word goes with which key word. -/
theorem test_seed_words :
    let v := expandSeed Config.engine 1 2 3 4
    v.e0.e1 = 0x1082276BF3A27253 ∧ v.e0.e3 = 0x9E3779B97F4A7C14 ∧ v.e1.e1 = 0x01886F0928403006 ∧
    v.e1.e3 = 0x2767F0B153D27B7C ∧ v.e2.e1 = 0x64D325D1C5371686 ∧ v.e2.e3 = 0xF06AD7AE9717877D ∧
    v.e3.e1 = 0x471C4AB3ED3D82A7 ∧ v.e3.e3 = 0x626E33B8D04B4330 := by decide

/-! ### ROUND and RNDU (spec/42_round.md section 4, spec/95_test_vectors.md section 6) -/

/-- The hand-checkable round's start. -/
def handGen : Gen :=
  { State.reset.gen with
    s := ⟨⟨0x0000000100000002, 0x0000000300000004, 0x0000000500000006, 0x0000000700000008⟩,
          ⟨0x10, 0x20, 0x30, 0x40⟩, ⟨0xFFFFFFFFFFFFFFFF, 0, 0x8000000000000001, 2⟩,
          ⟨0xFFFFFFFFFFFFFFFF, 0xFFFFFFFFFFFFFFFD, 8, 0x10⟩⟩
    o := ⟨⟨1, 2, 3, 4⟩, ⟨5, 6, 7, 8⟩, ⟨9, 10, 11, 12⟩, ⟨13, 14, 15, 16⟩⟩
    ctr := ⟨1, 3, 5, 7⟩ }

theorem test_round_by_hand :
    let r := oneRound Config.engine handGen
    r.2.ctr = ⟨2, 6, 10, 14⟩ ∧
    r.2.s.e2 = ⟨0x800000007FFFFFFF, 0x0000000100000000, 0x40000002FFFFFFFF, 0xFFFFFFFF00000001⟩ ∧
    r.2.o = ⟨⟨0x0000003580000001, 0x0000004680000002, 0x0000001380000003, 0x0000002080000004⟩,
             ⟨0x7FFFFFF2FFFFFFFF, 0x0000001700000000, 0x4000000000000000, 0x0000000000000001⟩,
             ⟨0x0000000980000006, 0x0000001080000009, 0x0000000A80000005, 0x0000000580000005⟩,
             ⟨0x800000357FFFFFFD, 0x0000004600000004, 0x40000013FFFFFFF9, 0xFFFFFFDC00000009⟩⟩ ∧
    wordList (unpack r.1) = [4, 3, 2, 1, 8, 7, 6, 5, 12, 11, 10, 9, 16, 15, 14, 13] := by decide +kernel

theorem test_rndu_golden_block :
    onNext (exec .rndu warmed)
      (fun t => t.resp.take 4 == [0x95, 0x5D, 0x96, 0xF9] && t.resp.drop 124 == [0x8B, 0xA6, 0x03, 0xF1] &&
        t.cur == 128 && t.gen.ctr == ⟨0xE, 0x2A, 0x46, 0x62⟩ &&
        t.gen.o.e3 == ⟨0x0241E87A68852196, 0x54771D497902CCDB, 0x8540D7E172F51C25, 0xEFA90067B3FEFB5A⟩) = true := by
  decide +kernel

/-! ### The byte stream (spec/95_test_vectors.md section 7) -/

theorem test_rdb_refills :
    onNext (exec .rdb warmed)
      (fun t => t.resp == [0x95] && t.cur == 1 && t.gen.ctr == ⟨0xE, 0x2A, 0x46, 0x62⟩) = true := by decide +kernel

theorem test_rdb_last_byte :
    onNext (exec .rdb (midBlock 127))
      (fun t => t.resp == [0xF1] && t.cur == 128 && t.gen.ctr == ⟨0xE, 0x2A, 0x46, 0x62⟩) = true := by decide +kernel

theorem test_fill_129 :
    onNext (exec (.fill 129) warmed)
      (fun t => t.resp.length == 129 && t.resp.drop 125 == [0xA6, 0x03, 0xF1, 0x0E] && t.cur == 1 &&
        t.gen.ctr == ⟨0xF, 0x2D, 0x4B, 0x69⟩) = true := by decide +kernel

theorem test_fill_157_from_100 :
    onNext (exec (.fill 157) (midBlock 100))
      (fun t => t.resp.take 4 == [0x98, 0x5D, 0xF2, 0xC6] && t.resp.drop 153 == [0xE8, 0x41, 0x02, 0xB2] &&
        t.cur == 1 && t.gen.ctr == ⟨0x10, 0x30, 0x50, 0x70⟩) = true := by decide +kernel

theorem test_nxt32_straddles :
    onNext (exec .nxt32 (midBlock 126))
      (fun t => nxt32Result (midBlock 126) t == 0xA20EF103 && t.cur == 2) = true := by decide +kernel

theorem test_nxt64_straddles :
    onNext (exec .nxt64 (midBlock 123))
      (fun t => nxt64Result (midBlock 123) t == 0x7AA20EF103A68B34 && t.cur == 3) = true := by decide +kernel

theorem test_nxt64_first :
    onNext (exec .nxt64 warmed)
      (fun t => nxt64Result warmed t == 0x53AAB40FF9965D95 && t.cur == 8) = true := by decide +kernel

/-! ### Faults and the step (spec/95_test_vectors.md section 8) -/

/-- An engine with these bytes on its command channel. -/
def sends (s : State) (bs : List Byte) : State := { s with cmd := bs }

theorem test_rdb_before_seed :
    onNext (step (sends State.reset [0x03]))
      (fun t => t.status.word == 0x03A && t.cmd == [] && t.resp == []) = true := by decide +kernel

theorem test_fill_zero_before_seed :
    onNext (step (sends State.reset [0x04, 0, 0, 0, 0, 0, 0, 0, 0]))
      (fun t => t.status.word == 0x04A && t.cmd == []) = true := by decide +kernel

theorem test_illegal_byte :
    onNext (step (sends warmed [0x80, 0x03])) (fun t => t.status.word == 0x807 && t.cmd == [0x03]) = true := by
  decide +kernel

theorem test_faulted_discards_seed :
    onNext (step (sends { State.reset with status := Status.ofWord 0x03A } (0x01 :: List.replicate 32 0)))
      (fun t => t.status.word == 0x03A && t.cmd == [] && t.cur == 128) = true := by decide +kernel

theorem test_incomplete_waits :
    refusedAs (step (sends warmed [0x04, 0x02, 0x00, 0x00])) .awaitingCommand = true := by decide +kernel

theorem test_reset_clears_fault :
    (hostAct .releaseReset { sends warmed [0x03] with rst := true, status := Status.ofWord 0x807 }).status.word = 0 := by
  decide

theorem test_first_step_runs_table_word :
    onNext (step (State.reset.withFetchWord 264 1)) (fun t => t.gen.o == warmO && t.cmd == []) = true ∧
    onNext (step (State.reset.withFetchWord 8 5)) (fun t => t.status.word == 0x05A) = true ∧
    onNext (step ((aluState opA opB).withFetchWord 16 0x1FA)) (fun t => t.alu.r == ⟨1, 0, 1, 0⟩) = true := by
  decide +kernel

/-! ### Witnesses: for every statement with hypotheses, states and operands that meet them -/

/-- An engine with an ALU request pending. -/
def pending (ctl : BitVec 10) : State := { State.reset with alu := { State.reset.alu with req := some ctl } }

/-- An engine in the FAULT state. -/
def faulted : State := { warmed with status := ⟨true, true, .illegalOpcode, 0x80⟩ }

/-- A seeded engine that differs from `warmed` only where nothing reads: T, W, REM and dead cells of BUF. -/
def warmedOther : State :=
  { warmed with gen := { warmed.gen with t := warmO, w := warmO }, rem := 5, buf := [(3, 0x77)] }

/-- An unseeded engine that differs from the reset state in S, O and CTR. -/
def resetOther : State := { State.reset with gen := warmed.gen, buf := [(0, 1), (127, 2)] }

theorem ready_warmed : Ready warmed := ⟨rfl, rfl⟩

theorem ready_mid (n : BitVec 8) : Ready (midBlock n) :=
  ⟨by simp only [midBlock, refill]; rfl, by simp only [midBlock, refill]; rfl⟩

theorem unseeded_reset : State.reset.status.fault = false ∧ State.reset.status.seeded = false := ⟨rfl, rfl⟩

theorem inv_warmed : Inv warmed := ⟨rfl, by decide, fun _ => rfl, rfl, by simp [Status.Legal, warmed]⟩

theorem witness_InverseTablesUndoPermutation :
    ∀ e, Config.engine.permA.get (Config.engine.permB.get e) = e := by decide

theorem witness_AluRequestsWriteOnlyResultBus :
    Instr.isCommand .vsplat = false ∧ (aluState opA opB).alu.a = ({ aluState opA opB with cur := 5 } : State).alu.a ∧
    (aluState opA opB).alu.b = ({ aluState opA opB with cur := 5 } : State).alu.b ∧
    (aluState opA opB).alu.x = ({ aluState opA opB with cur := 5 } : State).alu.x ∧ ∃ t, exec .vsplat (aluState opA opB) = .next t :=
  ⟨rfl, rfl, rfl, rfl, _, rfl⟩

theorem witness_ReservedAluOpsAreRefused :
    (pending 0x005).rst = false ∧ (pending 0x005).alu.req = some 0x005 ∧
    5 ≤ ((0x005 : BitVec 10).extractLsb' 0 3).toNat ∧ 5 ≤ ((0x3FF : BitVec 10).extractLsb' 0 3).toNat := by decide

theorem witness_RoundIsNineteenRequests : Config.engine.wf = true := by decide

theorem witness_BlockByteIsReversedLaneByte : 0 < 8 ∧ 7 < 8 := by decide

theorem witness_CounterCountsRounds :
    Config.engine.wf = true ∧ State.reset.gen.ctr = vsplat 0 := by decide

theorem witness_RnduEmitsPreviousRound :
    Ready warmed ∧ State.reset.status.fault = false ∧ State.reset.status.seeded = false :=
  ⟨ready_warmed, unseeded_reset⟩

theorem witness_RnduSkipsOneBlockOfTheStream :
    Ready (midBlock 127) ∧ (∃ t, exec .rndu (midBlock 127) = .next t) ∧ 0 < buffered (midBlock 127) ∧
    buffered (midBlock 127) ≤ 1 :=
  ⟨ready_mid 127, exists_next (by decide +kernel), by decide, by decide⟩

theorem witness_SeedStartsNewStream :
    faulted.status.fault = true ∧ State.reset.status.fault = false ∧ warmed.status.fault = false := by decide

theorem witness_AfterSeedWhateverTheSeed :
    State.reset.status.fault = false ∧ ∃ t, exec (.seed 1 2 3 4) State.reset = .next t :=
  ⟨rfl, exists_next (by decide +kernel)⟩

theorem witness_SeedForgetsThePast : State.reset.status.fault = false ∧ warmed.status.fault = false := by decide

theorem witness_RdbRefillsLazily :
    (Memory.wf warmed.buf = true ∧ Ready warmed ∧ warmed.cur = 128) ∧
    (Memory.wf (midBlock 127).buf = true ∧ Ready (midBlock 127) ∧ (midBlock 127).cur.toNat < 128) ∧
    (Memory.wf State.reset.buf = true ∧ State.reset.status.fault = false ∧ State.reset.status.seeded = false) :=
  ⟨⟨rfl, ready_warmed, rfl⟩, ⟨by decide +kernel, ready_mid 127, by decide⟩, rfl, unseeded_reset⟩

theorem witness_CursorOutsideBufferFaults :
    Ready { warmed with cur := 129 } ∧ 128 < ({ warmed with cur := 129 } : State).cur.toNat ∧
    (1 : Word).toNat % 128 ≠ 0 ∧ (127 : Word).toNat % 128 ≠ 0 ∧ (0 : Word).toNat % 128 = 0 ∧
    (128 : Word).toNat % 128 = 0 := ⟨⟨rfl, rfl⟩, by decide⟩

theorem witness_FillEmitsExactlyLen :
    (Ready warmed ∧ warmed.cur.toNat ≤ 128 ∧ Memory.wf warmed.buf = true) ∧
    ((128 : Word).toNat - buffered warmed) % 128 = 0 ∧ ((129 : Word).toNat - buffered warmed) % 128 ≠ 0 ∧
    ((28 : Word).toNat - buffered (midBlock 100)) % 128 = 0 ∧
    ((29 : Word).toNat - buffered (midBlock 100)) % 128 ≠ 0 :=
  ⟨⟨ready_warmed, by decide, rfl⟩, by decide, by decide, by decide, by decide⟩

theorem witness_FillZeroIsNoOperation : Ready warmed ∧ warmed.phase = .idle := ⟨ready_warmed, rfl⟩

theorem witness_CommandsConsumeTheStream :
    isByteStream .rdb = true ∧ isByteStream (.fill 129) = true ∧ isByteStream .nxt32 = true ∧
    isByteStream .nxt64 = true ∧ Ready warmed ∧ warmed.cur.toNat ≤ 128 ∧ Memory.wf warmed.buf = true ∧
    warmed.phase = .idle ∧
    (bytesTaken .nxt32 - buffered (midBlock 124)) % 128 = 0 ∧
    (bytesTaken .nxt32 - buffered (midBlock 125)) % 128 ≠ 0 :=
  ⟨rfl, rfl, rfl, rfl, ready_warmed, by decide, rfl, rfl, by decide, by decide⟩

theorem witness_PositionLaw :
    State.reset.status.fault = false ∧ Memory.wf State.reset.buf = true ∧ State.reset.phase = .idle ∧
    ∀ i ∈ [Instr.rdb, .fill 127, .nxt32, .nxt64], isByteStream i = true := by decide

theorem witness_ChunkingInvariance :
    Ready warmed ∧ Inv warmed ∧ (∀ i ∈ [Instr.fill 128], isByteStream i = true) ∧
    (∀ i ∈ [Instr.rdb, .fill 115, .nxt32, .nxt64], isByteStream i = true) ∧
    totalTaken [.fill 128] = totalTaken [.rdb, .fill 115, .nxt32, .nxt64] :=
  ⟨ready_warmed, inv_warmed, by decide, by decide, by decide⟩

theorem witness_FillSplitsForEveryConfig :
    (100 : Word).toNat + (29 : Word).toNat < 2 ^ 64 ∧ warmed.cur.toNat ≤ 128 ∧ Memory.wf warmed.buf = true := by
  decide

theorem witness_PhaseTableRefinesFill : warmed.cur.toNat ≤ 128 ∧ Memory.wf warmed.buf = true := by decide

theorem witness_RdbIsFillOne :
    Ready warmed ∧ warmed.cur.toNat ≤ 128 ∧ Memory.wf warmed.buf = true ∧ warmed.phase = .idle :=
  ⟨ready_warmed, by decide, rfl, rfl⟩

theorem witness_Nxt32ReadsFourBytes :
    (Ready (midBlock 126) ∧ (midBlock 126).cur.toNat ≤ 128 ∧ Memory.wf (midBlock 126).buf = true) ∧
    State.reset.status.fault = false ∧ State.reset.status.seeded = false :=
  ⟨⟨ready_mid 126, by decide, by decide +kernel⟩, unseeded_reset⟩

theorem witness_Nxt64ReadsEightBytes :
    (Ready warmed ∧ warmed.cur.toNat ≤ 128 ∧ Memory.wf warmed.buf = true ∧ 0 < 8 ∧ 7 < 8) ∧
    State.reset.status.fault = false ∧ State.reset.status.seeded = false :=
  ⟨⟨ready_warmed, by decide, rfl, by decide, by decide⟩, unseeded_reset⟩

theorem witness_Nxt64ReadsEightBytes_aligned :
    Ready (midBlock 120) ∧ Memory.wf (midBlock 120).buf = true ∧ 15 < 16 ∧ (midBlock 120).cur.toNat = 8 * 15 ∧
    ∀ a, a < 128 → Memory.read (midBlock 120).buf a = some ((blockBytes (unpack warmO)).getD a 0) :=
  ⟨ready_mid 120, by decide +kernel, by decide, by decide, by decide +kernel⟩

theorem witness_LittleEndianRoundTrips : [1, 2, 3, 4, 5, 6, 7, (0xFF : Byte)].length = 8 ∧ 0 < 8 ∧ 7 < 8 := by decide

theorem witness_NotSeededIsPrecise :
    State.reset.status.fault = false ∧ State.reset.status.seeded = false ∧
    ∃ len, Instr.fill 0 = .fill len := ⟨rfl, rfl, 0, rfl⟩

theorem witness_IllegalOpcodeIsPrecise :
    TakesCommands (sends warmed [0x00, 0x03]) ∧ (sends warmed [0x00, 0x03]).status.fault = false ∧
    (sends warmed [0x00, 0x03]).cmd = 0x00 :: [0x03] ∧ (0x00 : Byte).toNat = 0 ∧
    7 ≤ (0x07 : Byte).toNat ∧ 7 ≤ (0xFF : Byte).toNat := ⟨⟨rfl, rfl⟩, by decide⟩

theorem witness_FaultedEngineDiscards :
    TakesCommands (sends faulted (0x01 :: List.replicate 32 0)) ∧
    (sends faulted (0x01 :: List.replicate 32 0)).status.fault = true ∧
    (sends faulted (0x01 :: List.replicate 32 0)).cmd = 0x01 :: List.replicate 32 0 ∧
    commandLength 0x01 ≤ (sends faulted (0x01 :: List.replicate 32 0)).cmd.length := ⟨⟨rfl, rfl⟩, by decide⟩

theorem witness_OnlyResetClearsAFault :
    faulted.status.fault = true ∧ (∃ t, happen .engine (sends faulted [0x03]) = .next t) ∧
    ∃ t, happen (.host .releaseReset) { faulted with rst := true } = .next t :=
  ⟨rfl, exists_next (by decide +kernel), _, rfl⟩

/-- One event for each way STATUS changes or stays: a SEED, an illegal byte, an unseeded RDB, the release of an asserted
reset, and a host take. -/
theorem witness_StatusChangesOnlyAsSaid :
    (∃ t, happen .engine (sends State.reset (0x01 :: List.replicate 32 0)) = .next t) ∧
    (∃ t, happen .engine (sends State.reset [0x00]) = .next t) ∧
    (∃ t, happen .engine (sends State.reset [0x03]) = .next t) ∧
    (∃ t, happen (.host .releaseReset) { faulted with rst := true } = .next t) ∧
    ∃ t, happen (.host .take) warmed = .next t :=
  ⟨exists_next (by decide +kernel), exists_next (by decide +kernel), exists_next (by decide +kernel), ⟨_, rfl⟩, _, rfl⟩

theorem witness_EncodeUndoesDecode :
    decodeCommand [0x04, 0x82, 0, 0, 0, 0, 0, 0, 0, 0x02] = .command (.fill 130) 9 := by decide

theorem witness_IllegalOpcodesExactly : (0x00 : Byte).toNat = 0 ∧ 7 ≤ (0x07 : Byte).toNat := by decide

theorem witness_IncompleteCommandWaits :
    (TakesCommands warmed ∧ warmed.cmd = []) ∧
    (TakesCommands (sends warmed [0x04, 0x02]) ∧
      (sends warmed [0x04, 0x02]).cmd.length < commandLength ((sends warmed [0x04, 0x02]).cmd.headD 0)) ∧
    decodeCommand [0x07] ≠ .wait := ⟨⟨⟨rfl, rfl⟩, rfl⟩, ⟨⟨rfl, rfl⟩, by decide⟩, by decide⟩

theorem witness_StepRunsDecodedInstruction :
    (TakesCommands (sends warmed [0x02, 0x03]) ∧ decodeCommand (sends warmed [0x02, 0x03]).cmd = .command .rndu 1) ∧
    (pending 0x01A).rst = false ∧ (pending 0x01A).alu.req = some 0x01A ∧ decodeAlu 0x01A = .request (.vsrl 3) :=
  ⟨⟨⟨rfl, rfl⟩, by decide⟩, by decide⟩

theorem witness_ChannelRunsCommandsInOrder :
    TakesCommands State.reset ∧ ∀ i ∈ [Instr.seed 1 2 3 4, .rdb, .fill 130, .nxt32], i.isCommand = true :=
  ⟨⟨rfl, rfl⟩, by decide⟩

theorem witness_ResetLeavesEmptyUnseededEngine : ({ faulted with rst := true } : State).rst = true := rfl

theorem witness_EventsKeepTheInvariants :
    Inv warmed ∧ (∃ t, happen .engine (sends warmed [0x03]) = .next t) ∧ ∃ t, happen (.host .take) warmed = .next t :=
  ⟨inv_warmed, exists_next (by decide +kernel), _, rfl⟩

theorem witness_NoCommandFails :
    Inv warmed ∧ step { warmed with rst := true } = .refused .heldInReset ∧
    step warmed = .refused .awaitingCommand ∧ step (pending 0x006) = .refused (.reservedAluOp 6) :=
  ⟨inv_warmed, rfl, rfl, rfl⟩

theorem witness_HiddenStateIsNeverObserved :
    (Inv warmed ∧ Inv warmedOther ∧ Agree warmed warmedOther ∧ warmed ≠ warmedOther) ∧
    (Inv State.reset ∧ Inv resetOther ∧ Agree State.reset resetOther ∧ State.reset ≠ resetOther) :=
  ⟨⟨inv_warmed, ⟨rfl, by decide, fun _ => rfl, rfl, by simp [Status.Legal, warmedOther, warmed]⟩,
      ⟨fun _ => ⟨rfl, rfl, rfl⟩, fun a h hl => absurd hl (Nat.not_lt.2 h), rfl, rfl, rfl, rfl, rfl, rfl, rfl⟩, by decide⟩,
    ⟨rfl, by decide, fun _ => rfl, rfl, by simp [Status.Legal, State.reset]⟩,
    ⟨rfl, by decide, fun _ => rfl, rfl, by simp [Status.Legal, resetOther, State.reset]⟩,
    ⟨fun h => absurd h (by decide), fun a h hl => absurd hl (Nat.not_lt.2 h), rfl, rfl, rfl, rfl, rfl, rfl, rfl⟩,
    by decide⟩

theorem witness_ConfigInvariantAtConstruction : Config.build Config.engine = some Config.engine := by decide

end Sys2Proof.Tests
end

/-! The scope of the engine (spec/00_scope.md): what a machine is built from, what one step runs, and where the model stops
when CUR is outside BUF. -/

namespace Sys2Proof

/-! Construction -/

/-- A record builds exactly when it is well formed, and then as it stands (R3, R133). -/
theorem Config.build_eq_some {c d : Config} : Config.build c = some d ↔ c.wf = true ∧ c = d := by
  simp [Config.build]

/-- The configuration invariant of R3 as its four equations. -/
theorem Config.sizesAgree_iff {c : Config} :
    c.sizesAgree = true ↔
      c.bufBytes = c.blockBytes ∧ c.blockBytes = c.blockWords * 8 ∧
      c.blockWords * 8 = c.nOut * c.lanes * (c.laneBits / 8) ∧ c.bufBytes = 128 := by
  simp [Config.sizesAgree, and_assoc]

theorem Config.sizesAgree_of_wf {c : Config} (h : c.wf = true) : c.sizesAgree = true := by
  simp only [Config.wf, Bool.and_eq_true, and_assoc] at h
  exact h.1

/-- Settles O52: construction answers only a well-formed record, and that one unchanged. -/
theorem configInvariantAtConstruction : Obligations.ConfigInvariantAtConstruction := by
  refine ⟨fun c d h => ?_, Config.build_eq_some.2 ⟨by decide, rfl⟩⟩
  obtain ⟨hw, hcd⟩ := Config.build_eq_some.1 h
  exact ⟨hcd.symm, Config.sizesAgree_iff.1 (Config.sizesAgree_of_wf hw)⟩

namespace Machine

/-! One step -/

/-- A complete command at the head of the channel is fetched with its bytes consumed (R33, R64). -/
theorem fetchCommand_command {s : State} {i : Instr} {n : Nat} (h : decodeCommand s.cmd = .command i n) :
    fetchCommand s = .run i (consume n s) := by
  rw [fetchCommand, h]

/-- A request that decodes is taken off the ALU port (R58). -/
theorem fetchAlu_request {s : State} {i : Instr} {ctl : BitVec 10} (h : decodeAlu ctl = .request i) :
    fetchAlu ctl s = .run i { s with alu := { s.alu with req := none } } := by
  rw [fetchAlu, h]

/-- Outside reset a pending ALU request comes before the command channel (log entry 5). -/
theorem fetch_pending {s : State} {ctl : BitVec 10} (hr : s.rst = false) (ha : s.alu.req = some ctl) :
    fetch s = fetchAlu ctl s := by
  simp [fetch, hr, ha]

/-- A step is `exec` of the instruction the fetch finds. -/
theorem step_of_fetch_run {s q : State} {i : Instr} (h : fetch s = .run i q) : step s = exec i q := by
  rw [step, h]

/-- The step of a complete command (R5, R33). -/
theorem step_command {s : State} {i : Instr} {n : Nat} (h : TakesCommands s)
    (hd : decodeCommand s.cmd = .command i n) : step s = exec i (consume n s) :=
  step_of_fetch_run ((fetch_takes h).trans (fetchCommand_command hd))

/-- The step of a pending ALU request (R58). -/
theorem step_request {s : State} {i : Instr} {ctl : BitVec 10} (hr : s.rst = false) (ha : s.alu.req = some ctl)
    (hd : decodeAlu ctl = .request i) : step s = exec i { s with alu := { s.alu with req := none } } :=
  step_of_fetch_run ((fetch_pending hr ha).trans (fetchAlu_request hd))

/-- Settles O45: both sources of an instruction, the command channel and the ALU port. -/
theorem stepRunsDecodedInstruction : Obligations.StepRunsDecodedInstruction :=
  ⟨fun _ _ _ => step_command, fun _ _ _ => step_request⟩

/-! CUR above 128 -/

theorem emitByte_gt (c : Config) {s : State} (h : 128 < s.cur.toNat) :
    emitByte c s = .fault (.bufAddress s.cur.toNat) := by
  rw [emitByte, readByte_gt c h]
  rfl

/-- Phase DRAIN finds no byte in BUF and does nothing (R113). -/
theorem drain_gt (c : Config) {s : State} (h : 128 < s.cur.toNat) : drain c s = .next s := by
  have hb : buffered s = 0 := Nat.sub_eq_zero_of_le (Nat.le_of_lt h)
  rw [drain_eq, hb, Nat.min_zero, advance_zero]

/-- Phase TAIL with a byte owed stops at its first read: CUR is not 128, so there is no refill (R111, R115). -/
theorem tail_gt (c : Config) {s : State} (h : 128 < s.cur.toNat) (hr : 0 < s.rem.toNat) :
    tail c s = .fault (.bufAddress s.cur.toNat) := by
  rw [rem_ne_zero_turn c hr, takeByte_gt c h]
  rfl

/-- The state in which phase TAIL of a FILL begins when DRAIN took nothing. -/
def tailStart (c : Config) (len : Word) (s : State) : State :=
  enter .tail (bulkAfter c (len.toNat / 128) (enter .bulk (acceptFill len s)))

@[simp] theorem tailStart_cur (c : Config) (len : Word) (s : State) : (tailStart c len s).cur = s.cur := rfl

theorem tailStart_rem (c : Config) (len : Word) (s : State) :
    (tailStart c len s).rem.toNat = len.toNat % 128 := by
  rw [tailStart, enter_rem, bulkAfter_rem, enter_rem, acceptFill_rem]
  omega

/-- With CUR above 128 a FILL is its whole blocks and then phase TAIL (R112). -/
theorem fill_gt (c : Config) (len : Word) {s : State} (h : 128 < s.cur.toNat) :
    fill c len s = andThen (tail c (tailStart c len s)) fun t => .next (enter .idle t) := by
  rw [fill, drain_gt c (s := acceptFill len s) h, andThen_next, bulk_eq, andThen_next]
  rfl

theorem fill_gt_partial (c : Config) {len : Word} {s : State} (h : 128 < s.cur.toNat)
    (hl : len.toNat % 128 ≠ 0) : fill c len s = .fault (.bufAddress s.cur.toNat) := by
  have hr : 0 < (tailStart c len s).rem.toNat := by
    rw [tailStart_rem]
    exact Nat.pos_of_ne_zero hl
  rw [fill_gt c len h, tail_gt c (s := tailStart c len s) h hr]
  rfl

theorem fill_gt_whole (c : Config) {len : Word} {s : State} (h : 128 < s.cur.toNat)
    (hl : len.toNat % 128 = 0) : fill c len s = .next (enter .idle (tailStart c len s)) := by
  rw [fill_gt c len h, tail_none c ((tailStart_rem c len s).trans hl), andThen_next]

/-- Settles O22: DRAIN does nothing and BULK leaves CUR alone, so the only read is the one of RDB or of TAIL, which runs
exactly when a byte is still owed. -/
theorem cursorOutsideBufferFaults : Obligations.CursorOutsideBufferFaults := by
  intro s len hs hc
  rw [exec_rdb, exec_fill, guarded_ready hs, guarded_ready hs]
  exact ⟨emitByte_gt _ hc, fill_gt_partial _ hc,
    fun hl => ⟨_, fill_gt_whole _ hc hl, tailStart_cur Config.engine len s⟩⟩

end Machine
end Sys2Proof

/-! The state between commands (spec/10_state.md): the status lines, reset, the round counter, the invariants that every
event keeps, and the registers that nothing observes. -/

namespace Sys2Proof.Machine

/-! ### The status lines (R16, R130) -/

@[simp] theorem Cause.ofCode_code (c : Cause) : Cause.ofCode c.code = c := by
  cases c <;> rfl

theorem Cause.code_inj {c d : Cause} : c.code = d.code ↔ c = d :=
  ⟨fun h => by rw [← Cause.ofCode_code c, h, Cause.ofCode_code], congrArg Cause.code⟩

/-- The twelve bits of the status number, one field after the other. -/
theorem Status.word_getLsbD (st : Status) (i : Nat) :
    st.word.getLsbD i =
      if i = 0 then st.seeded else if i = 1 then st.fault
      else if i < 4 then st.cause.code.getLsbD (i - 2) else st.finfo.getLsbD (i - 4) := by
  refine BitVec.getLsbD_append.trans ?_
  rw [BitVec.getLsbD_append, BitVec.getLsbD_append]
  rcases i with _ | _ | _ | _ | i <;> simp

theorem Status.word_cause (st : Status) : st.word.extractLsb' 2 2 = st.cause.code := by
  ext i hi
  rw [BitVec.getElem_extractLsb', Status.word_getLsbD, if_neg (by omega), if_neg (by omega), if_pos (by omega),
    Nat.add_sub_cancel_left, BitVec.getLsbD_eq_getElem]

theorem Status.word_finfo (st : Status) : st.word.extractLsb' 4 8 = st.finfo := by
  ext i hi
  rw [BitVec.getElem_extractLsb', Status.word_getLsbD, if_neg (by omega), if_neg (by omega), if_neg (by omega),
    Nat.add_sub_cancel_left, BitVec.getLsbD_eq_getElem]

@[simp] theorem Status.ofWord_word (st : Status) : Status.ofWord st.word = st := by
  unfold Status.ofWord
  rw [Status.word_getLsbD, Status.word_getLsbD, Status.word_cause, Status.word_finfo, Cause.ofCode_code]
  rfl

/-- Settles O39: each field is read off its bits, and the codes tell the causes apart. -/
theorem statusLinesLayout : Obligations.StatusLinesLayout := fun s =>
  ⟨s.status.word_getLsbD 0, s.status.word_getLsbD 1, s.status.word_cause, s.status.word_finfo, s.status.ofWord_word,
    Cause.code_inj (d := .none), Cause.code_inj (d := .illegalOpcode), Cause.code_inj (d := .notSeeded)⟩

/-! ### Reset (R24, R150) -/

theorem step_heldInReset {s : State} (h : s.rst = true) : step s = .refused .heldInReset := by
  simp [step, fetch, h]

/-- Releasing an asserted reset is the release. -/
theorem hostAct_release {s : State} (h : s.rst = true) : hostAct .releaseReset s = releaseReset s :=
  if_pos h

/-- Releasing what is not asserted does nothing (log entry 12). -/
theorem hostAct_release_idle {s : State} (h : s.rst = false) : hostAct .releaseReset s = s := by
  simp [hostAct, h]

theorem Status.word_zero : (⟨false, false, .none, 0⟩ : Status).word = 0 := by decide

/-- Settles O47: the release writes the values of R24 whatever the engine held, and the state after reset has them. -/
theorem resetLeavesEmptyUnseededEngine : Obligations.ResetLeavesEmptyUnseededEngine := by
  refine ⟨fun s h => ?_, rfl, Status.word_zero, rfl, rfl, rfl⟩
  rw [hostAct_release h]
  exact ⟨step_heldInReset h, rfl, Status.word_zero, rfl, rfl, rfl, rfl⟩

/-! ### The counter (R13, R19, R101) -/

/-- Every round adds INC to the counter, lane by lane, from any counter and for any configuration. -/
theorem genAfter_ctr_get (c : Config) (n : Nat) (g : Gen) (i : Fin 4) :
    (genAfter c n g).ctr.get i = g.ctr.get i + BitVec.ofNat 64 n * c.inc.get i := by
  induction n with
  | zero => simp
  | succ n ih =>
    rw [genAfter_succ', roundUnpack_ctr, vadd_get, ih, BitVec.ofNat_add, BitVec.add_mul, BitVec.one_mul,
      BitVec.add_assoc]

theorem inc_of_wf {c : Config} (h : c.wf = true) : c.inc = ⟨1, 3, 5, 7⟩ := by
  simp only [Config.wf, Config.roundFixed, Bool.and_eq_true, beq_iff_eq] at h
  obtain ⟨⟨⟨_, ⟨⟨_, hinc⟩, _⟩, _⟩, _⟩, _⟩ := h
  exact hinc

/-- The lanes of INC are the odd numbers. -/
theorem inc_get_toNat {c : Config} (h : c.wf = true) (i : Fin 4) : (c.inc.get i).toNat = 2 * i.val + 1 := by
  rw [inc_of_wf h]
  revert i
  decide

/-- Settles O13: by induction on the rounds each adds INC, and the sum is read as a number. -/
theorem counterCountsRounds : Obligations.CounterCountsRounds := by
  intro c g n i hw h0
  rw [genAfter_ctr_get, h0, vsplat_get, BitVec.toNat_add, BitVec.toNat_mul, inc_get_toNat hw, BitVec.toNat_ofNat]
  simp

/-! ### The invariants (R15, R22, R23) -/

/-- Settles O48: the buffer is empty, CUR is 128 and STATUS is zero. -/
theorem resetMeetsTheInvariants : Obligations.ResetMeetsTheInvariants where
  bufWf := rfl
  curLe := by decide
  unseededEmpty _ := rfl
  phaseIdle := rfl
  statusLegal := ⟨fun _ => ⟨rfl, rfl⟩, nofun⟩

section
variable {s : State}

/-- The invariants speak of BUF, CUR, STATUS and PHASE, and of nothing else. -/
theorem Inv.of_same {t : State} (h : Inv s) (hb : t.buf = s.buf) (hc : t.cur = s.cur)
    (hs : t.status = s.status) (hp : t.phase = s.phase) : Inv t where
  bufWf := hb ▸ h.bufWf
  curLe := hc ▸ h.curLe
  unseededEmpty hu := hc.trans (h.unseededEmpty (hs ▸ hu))
  phaseIdle := hp.trans h.phaseIdle
  statusLegal := hs ▸ h.statusLegal

/-- Fault entry with one of the two run-time causes keeps the invariants (R133, R135). -/
theorem Inv.raise (h : Inv s) {cause : Cause} (hc : cause = .illegalOpcode ∨ cause = .notSeeded) (info : Byte) :
    Inv (raise cause info s) :=
  { h with statusLegal := ⟨nofun, fun _ => hc⟩ }

theorem Inv.illegalOpcode (h : Inv s) (op : Byte) : Inv (illegalOpcode op s) := by
  unfold Machine.illegalOpcode
  split
  · exact h
  · exact h.raise (.inl rfl) op

/-- SEED empties the buffer and touches neither FAULT nor CAUSE (R90, R94). -/
theorem Inv.seed (h : Inv s) (c : Config) (a b d e : Word) : Inv (seed c a b d e s) where
  bufWf := (seed_buf ..).symm ▸ h.bufWf
  curLe := by rw [seed_cur]; decide
  unseededEmpty _ := seed_cur ..
  phaseIdle := (seed_phase ..).trans h.phaseIdle
  statusLegal := by rw [seed_status]; exact h.statusLegal

/-- A FILL on a seeded engine leaves CUR at most 128 and PHASE = IDLE (R15, R121). -/
theorem Inv.fillEnd (h : Inv s) (hs : s.status.seeded = true) (c : Config) (n : Nat) : Inv (fillEnd c n s) where
  bufWf := fillEnd_wf c n h.bufWf
  curLe := by rw [fillEnd_cur c n h.curLe]; exact cursorAfter_le n h.curLe
  unseededEmpty hu := absurd (hs.symm.trans hu) nofun
  phaseIdle := rfl
  statusLegal := h.statusLegal

/-- The release of reset restores the invariants from any canonical buffer (R150). -/
theorem Inv.releaseReset (h : Inv s) : Inv (releaseReset s) where
  bufWf := h.bufWf
  curLe := by rw [releaseReset_cur]; decide
  unseededEmpty _ := rfl
  phaseIdle := rfl
  statusLegal := ⟨fun _ => ⟨rfl, rfl⟩, nofun⟩

/-- The three verdicts of the checks before a command: FAULT, NOT_SEEDED, or it executes (R134). -/
theorem Status.check_cases (st : Status) (generates : Bool) :
    st.fault = true ∨ (st.fault = false ∧ generates = true ∧ st.seeded = false) ∨
      (st.fault = false ∧ (generates = true → st.seeded = true)) := by
  by_cases hf : st.fault = true
  · exact .inl hf
  · have hf : st.fault = false := by simpa using hf
    by_cases hs : generates = true → st.seeded = true
    · exact .inr (.inr ⟨hf, hs⟩)
    · exact .inr (.inl ⟨hf, by simpa using hs⟩)

theorem guarded_executes {op : Byte} {g : Bool} {body : State → Res} (hf : s.status.fault = false)
    (hs : g = true → s.status.seeded = true) : guarded op g body s = body s := by
  cases g with
  | false => exact guarded_unfaulted hf
  | true => exact guarded_ready ⟨hf, hs rfl⟩

/-- A command completes and keeps the invariants if its own effect does where the checks let it execute. -/
theorem guarded_inv {op : Byte} {g : Bool} {body : State → Res} (h : Inv s)
    (hb : (g = true → s.status.seeded = true) → ∃ t, body s = .next t ∧ Inv t) :
    ∃ t, guarded op g body s = .next t ∧ Inv t := by
  rcases s.status.check_cases g with hf | ⟨hf, rfl, hs⟩ | ⟨hf, hs⟩
  · exact ⟨s, guarded_faulted hf, h⟩
  · exact ⟨_, guarded_unseeded hf hs, h.raise (.inr rfl) op⟩
  · rw [guarded_executes hf hs]
    exact hb hs

theorem fill_inv (h : Inv s) (hs : s.status.seeded = true) (c : Config) (len : Word) :
    ∃ t, fill c len s = .next t ∧ Inv t :=
  ⟨_, fill_eq c len s h.curLe h.bufWf, h.fillEnd hs c len.toNat⟩

theorem emitByte_inv (h : Inv s) (hs : s.status.seeded = true) (c : Config) :
    ∃ t, emitByte c s = .next t ∧ Inv t :=
  ⟨_, emitByte_eq c h.curLe h.bufWf, { h.fillEnd hs c 1 with phaseIdle := h.phaseIdle }⟩

/-- Every instruction completes from a state that meets the invariants, and keeps them. -/
theorem exec_inv (h : Inv s) (i : Instr) : ∃ t, exec i s = .next t ∧ Inv t := by
  have alu (v : Vec) : Inv (driveResult v s) := h.of_same rfl rfl rfl rfl
  cases i with
  | seed a b d e =>
    rw [exec_seed]
    exact guarded_inv h fun _ => ⟨_, rfl, h.seed _ a b d e⟩
  | rndu =>
    rw [exec_rndu]
    exact guarded_inv h fun _ => ⟨_, rfl, h.of_same rfl rfl rfl rfl⟩
  | rdb =>
    rw [exec_rdb]
    exact guarded_inv h fun hs => emitByte_inv h (hs rfl) _
  | fill len =>
    rw [exec_fill]
    exact guarded_inv h fun hs => fill_inv h (hs rfl) _ len
  | nxt32 =>
    rw [exec_nxt32]
    exact guarded_inv h fun hs => fill_inv h (hs rfl) _ 4
  | nxt64 =>
    rw [exec_nxt64]
    exact guarded_inv h fun hs => fill_inv h (hs rfl) _ 8
  | vadd => exact ⟨_, rfl, alu _⟩
  | vxor => exact ⟨_, rfl, alu _⟩
  | vsrl n => exact ⟨_, rfl, alu _⟩
  | vperm32 t => exact ⟨_, rfl, alu _⟩
  | vsplat => exact ⟨_, rfl, alu _⟩

/-- The fetch changes only the command channel and the ALU port, so a step keeps what `exec` and fault entry keep. -/
theorem step_inv {t : State} (h : Inv s) (hn : step s = .next t) : Inv t := by
  have fetched {q : State} {cmd : List Byte} {alu : AluPort} (hq : q = { s with cmd := cmd, alu := alu }) : Inv q :=
    hq ▸ h.of_same rfl rfl rfl rfl
  rcases step_cases s with ⟨i, q, e, hq⟩ | ⟨op, q, e, hq⟩ | ⟨_, e⟩ | ⟨_, _, e⟩ | ⟨_, _, _, _, e⟩ <;> rw [hn] at e
  · obtain ⟨u, hu, hinv⟩ := exec_inv (fetched hq) i
    rw [hu] at e
    cases e
    exact hinv
  · cases e
    exact (fetched hq).illegalOpcode op
  all_goals cases e

theorem hostAct_inv (h : Inv s) (a : HostAction) : Inv (hostAct a s) := by
  cases a with
  | send bs => exact h.of_same rfl rfl rfl rfl
  | take => exact h.of_same rfl rfl rfl rfl
  | assertReset => exact h.of_same rfl rfl rfl rfl
  | releaseReset =>
    rcases s.rst.eq_false_or_eq_true with hr | hr
    · exact (hostAct_release hr).symm ▸ h.releaseReset
    · exact (hostAct_release_idle hr).symm ▸ h

end

/-- Settles O49: an event is a step of the engine or an action of the host, and each keeps the invariants. -/
theorem eventsKeepTheInvariants : Obligations.EventsKeepTheInvariants := by
  intro e s t h hn
  cases e with
  | engine => exact step_inv h hn
  | host a =>
    cases hn
    exact hostAct_inv h a

/-! ### What nothing observes (R22, R23, R24, R132) -/

/-- A live cell holds the byte of the stream at its distance from the cursor (spec/43_byte_stream.md R120). -/
theorem lookup_eq_streamByte (c : Config) {s : State} {a : Nat} (hc : s.cur.toNat ≤ a) (ha : a < 128) :
    Memory.lookup s.buf a = streamByte c s (a - s.cur.toNat) := by
  rw [streamByte_lt c (by simp only [buffered]; omega), Nat.add_sub_cancel' hc]

section
variable {s t : State}

theorem Agree.lookup (h : Agree s t) {a : Nat} (hc : s.cur.toNat ≤ a) (ha : a < 128) :
    Memory.lookup s.buf a = Memory.lookup t.buf a := by
  simpa only [Memory.read_eq_some ha, Option.some.injEq] using h.live a hc ha

/-- With an empty buffer no cell is live. -/
theorem no_live_cell (h : s.cur = 128) :
    ∀ a, s.cur.toNat ≤ a → a < 128 → Memory.read s.buf a = Memory.read t.buf a := by
  intro a hc ha
  rw [h] at hc
  exact absurd ha (Nat.not_lt.2 hc)

theorem Agree.buffered (h : Agree s t) : buffered s = buffered t := by
  rw [Machine.buffered, Machine.buffered, h.cur]

/-- Seeded engines that agree have the same byte stream. -/
theorem Agree.streamByte (h : Agree s t) (hs : s.status.seeded = true) (c : Config) (p : Nat) :
    streamByte c s p = streamByte c t p := by
  rcases Nat.lt_or_ge p (Machine.buffered s) with hp | hp
  · rw [streamByte_lt c hp, streamByte_lt c (h.buffered ▸ hp), ← h.cur]
    exact h.lookup (Nat.le_add_right _ _) (by simp only [Machine.buffered] at hp; omega)
  · rw [streamByte_ge c hp, streamByte_ge c (h.buffered ▸ hp), h.buffered,
      blockOf_congr c (genAfter_congr c _ (h.regs hs))]

theorem Agree.streamBytes (h : Agree s t) (hs : s.status.seeded = true) (c : Config) (n : Nat) :
    streamBytes c s n = streamBytes c t n :=
  List.map_congr_left fun p _ => h.streamByte hs c p

/-! Each update keeps agreement -/

/-- What the fetch does: the same new contents of the command channel and the ALU port on both sides. -/
theorem Agree.fetched (h : Agree s t) (cmd : List Byte) (alu : AluPort) :
    Agree { s with cmd := cmd, alu := alu } { t with cmd := cmd, alu := alu } :=
  { h with cmd := rfl, alu := rfl }

theorem Agree.raise (h : Agree s t) (cause : Cause) (info : Byte) :
    Agree (raise cause info s) (raise cause info t) :=
  { h with status := by rw [raise_status, raise_status, h.status] }

theorem Agree.illegalOpcode (h : Agree s t) (op : Byte) :
    Agree (illegalOpcode op s) (illegalOpcode op t) := by
  unfold Machine.illegalOpcode
  rw [← h.status]
  split
  · exact h
  · exact h.raise _ op

/-- An ALU request's result is a function of the port's buses (R79). -/
theorem Agree.driveResult (h : Agree s t) (f : AluPort → Vec) :
    Agree (driveResult (f s.alu) s) (driveResult (f t.alu) t) :=
  { h with alu := by rw [driveResult_alu, driveResult_alu, h.alu] }

/-- SEED writes S, O and CTR without reading them (R90, R132). -/
theorem Agree.seed (h : Agree s t) (c : Config) (a b d e : Word) :
    Agree (seed c a b d e s) (seed c a b d e t) where
  regs _ := warmUp_congr c _ ⟨rfl, rfl, rfl⟩
  live := no_live_cell (seed_cur ..)
  cur := (seed_cur ..).trans (seed_cur ..).symm
  status := by rw [seed_status, seed_status, h.status]
  phase := by rw [seed_phase, seed_phase, h.phase]
  alu := by rw [seed_alu, seed_alu, h.alu]
  cmd := by rw [seed_cmd, seed_cmd, h.cmd]
  resp := by rw [seed_resp, seed_resp, h.resp]
  rst := by rw [seed_rst, seed_rst, h.rst]

theorem Agree.rndu (h : Agree s t) (hs : s.status.seeded = true) (c : Config) : Agree (rndu c s) (rndu c t) :=
  { h with
    regs := fun _ => roundUnpack_congr c (h.regs hs)
    resp := by
      obtain ⟨_, ho, _⟩ := h.regs hs
      rw [rndu_resp, rndu_resp, roundUnpack_words, roundUnpack_words, h.resp, ho] }

/-- A FILL on engines that agree: the bytes it emits and the cells it leaves live are bytes of their common stream. -/
theorem Agree.fillEnd (h : Agree s t) (hs : s.status.seeded = true) (hi : Inv s) (hj : Inv t) (c : Config) (n : Nat) :
    Agree (fillEnd c n s) (fillEnd c n t) := by
  have hr : roundsFor s n = roundsFor t n := by rw [roundsFor, roundsFor, h.buffered]
  have hcur : (Machine.fillEnd c n s).cur = (Machine.fillEnd c n t).cur := by
    simp only [Machine.fillEnd, cursorAfter, h.buffered, h.cur]
  refine { h with
    regs := fun _ => ?_
    live := fun a hc ha => ?_
    cur := hcur
    phase := rfl
    resp := congrArg₂ (· ++ ·) h.resp (h.streamBytes hs c n) }
  · show SameRegs (genAfter c (roundsFor s n) s.gen) (genAfter c (roundsFor t n) t.gen)
    rw [hr]
    exact genAfter_congr c _ (h.regs hs)
  · rw [Memory.read_eq_some ha, Memory.read_eq_some ha, lookup_eq_streamByte c hc ha,
      lookup_eq_streamByte c (hcur ▸ hc) ha, streamByte_fillEnd c n hi.curLe hi.bufWf,
      streamByte_fillEnd c n hj.curLe hj.bufWf, hcur, h.streamByte hs]

theorem Agree.releaseReset (h : Agree s t) : Agree (releaseReset s) (releaseReset t) where
  regs := nofun
  live := no_live_cell rfl
  cur := rfl
  status := rfl
  phase := rfl
  alu := by rw [releaseReset_alu, releaseReset_alu, h.alu]
  cmd := rfl
  resp := rfl
  rst := rfl

/-! The step -/

/-- The checks around a command look at STATUS only, which is the same on both sides (R134). -/
theorem guarded_agree {op : Byte} {g : Bool} {body : State → Res} (h : Agree s t)
    (hb : (g = true → s.status.seeded = true) → AgreeRes (body s) (body t)) :
    AgreeRes (guarded op g body s) (guarded op g body t) := by
  have hst := h.status
  rcases s.status.check_cases g with hf | ⟨hf, rfl, hs⟩ | ⟨hf, hs⟩
  · rw [guarded_faulted hf, guarded_faulted (hst ▸ hf)]
    exact h
  · rw [guarded_unseeded hf hs, guarded_unseeded (hst ▸ hf) (hst ▸ hs)]
    exact h.raise _ op
  · rw [guarded_executes hf hs, guarded_executes (hst ▸ hf) (hst ▸ hs)]
    exact hb hs

theorem fill_agree (h : Agree s t) (hs : s.status.seeded = true) (hi : Inv s) (hj : Inv t) (c : Config) (len : Word) :
    AgreeRes (fill c len s) (fill c len t) := by
  rw [fill_eq c len s hi.curLe hi.bufWf, fill_eq c len t hj.curLe hj.bufWf]
  exact h.fillEnd hs hi hj c len.toNat

theorem emitByte_agree (h : Agree s t) (hs : s.status.seeded = true) (hi : Inv s) (hj : Inv t) (c : Config) :
    AgreeRes (emitByte c s) (emitByte c t) := by
  rw [emitByte_eq c hi.curLe hi.bufWf, emitByte_eq c hj.curLe hj.bufWf]
  exact { h.fillEnd hs hi hj c 1 with phase := h.phase }

/-- Every instruction answers alike on engines that agree. -/
theorem exec_agree (h : Agree s t) (hi : Inv s) (hj : Inv t) (i : Instr) : AgreeRes (exec i s) (exec i t) := by
  cases i with
  | seed a b d e =>
    rw [exec_seed, exec_seed]
    exact guarded_agree h fun _ => h.seed _ a b d e
  | rndu =>
    rw [exec_rndu, exec_rndu]
    exact guarded_agree h fun hs => h.rndu (hs rfl) _
  | rdb =>
    rw [exec_rdb, exec_rdb]
    exact guarded_agree h fun hs => emitByte_agree h (hs rfl) hi hj _
  | fill len =>
    rw [exec_fill, exec_fill]
    exact guarded_agree h fun hs => fill_agree h (hs rfl) hi hj _ len
  | nxt32 =>
    rw [exec_nxt32, exec_nxt32]
    exact guarded_agree h fun hs => fill_agree h (hs rfl) hi hj _ 4
  | nxt64 =>
    rw [exec_nxt64, exec_nxt64]
    exact guarded_agree h fun hs => fill_agree h (hs rfl) hi hj _ 8
  | vadd => exact h.driveResult fun p => vadd p.a p.b
  | vxor => exact h.driveResult fun p => vxor p.a p.b
  | vsrl n => exact h.driveResult fun p => vsrl p.a n
  | vperm32 k => exact h.driveResult fun p => vperm32 Config.engine p.a k
  | vsplat => exact h.driveResult fun p => vsplat p.x

/-- The fetch reads only the reset input, the ALU port and the command channel, which are the same on both sides: it finds
the same, and leaves the same on them. -/
theorem Agree.fetch (h : Agree s t) :
    (∃ r, fetch s = .stop r ∧ fetch t = .stop r) ∨
    ∃ cmd alu,
      (∃ i, fetch s = .run i { s with cmd := cmd, alu := alu } ∧
        fetch t = .run i { t with cmd := cmd, alu := alu }) ∨
      (∃ op, fetch s = .illegal op { s with cmd := cmd, alu := alu } ∧
        fetch t = .illegal op { t with cmd := cmd, alu := alu }) := by
  rcases s.rst.eq_false_or_eq_true with hr | hr
  · exact .inl ⟨.heldInReset, if_pos hr, if_pos (h.rst ▸ hr)⟩
  · cases ha : s.alu.req with
    | some ctl =>
      rw [fetch_pending hr ha, fetch_pending (h.rst ▸ hr) (h.alu ▸ ha)]
      unfold fetchAlu
      rw [← h.alu]
      cases decodeAlu ctl with
      | request i => exact .inr ⟨s.cmd, _, .inl ⟨i, rfl, by rw [h.cmd]⟩⟩
      | reserved o => exact .inl ⟨_, rfl, rfl⟩
    | none =>
      rw [fetch_takes ⟨hr, ha⟩, fetch_takes ⟨h.rst ▸ hr, h.alu ▸ ha⟩]
      unfold fetchCommand consume
      rw [← h.cmd]
      cases decodeCommand s.cmd with
      | wait => exact .inl ⟨_, rfl, rfl⟩
      | command i n => exact .inr ⟨_, s.alu, .inl ⟨i, rfl, by rw [h.alu]⟩⟩
      | illegal op => exact .inr ⟨_, s.alu, .inr ⟨op, rfl, by rw [h.alu]⟩⟩

theorem step_agree (hi : Inv s) (hj : Inv t) (h : Agree s t) : AgreeRes (step s) (step t) := by
  unfold step
  rcases h.fetch with ⟨r, hs, ht⟩ | ⟨cmd, alu, ⟨i, hs, ht⟩ | ⟨op, hs, ht⟩⟩ <;> rw [hs, ht]
  · exact rfl
  · exact exec_agree (h.fetched cmd alu) (hi.of_same rfl rfl rfl rfl) (hj.of_same rfl rfl rfl rfl) i
  · exact (h.fetched cmd alu).illegalOpcode op

theorem hostAct_agree (a : HostAction) (h : Agree s t) : Agree (hostAct a s) (hostAct a t) := by
  cases a with
  | send bs => exact { h with cmd := congrArg (· ++ bs) h.cmd }
  | take => exact { h with resp := congrArg (List.drop 1) h.resp }
  | assertReset => exact { h with rst := rfl }
  | releaseReset =>
    rcases s.rst.eq_false_or_eq_true with hr | hr
    · rw [hostAct_release hr, hostAct_release (h.rst ▸ hr)]
      exact h.releaseReset
    · rw [hostAct_release_idle hr, hostAct_release_idle (h.rst ▸ hr)]
      exact h

end

/-- Settles O51: the fetch finds the same on both sides, each command's effect is decided by what agrees, and so is each host
action's. -/
theorem hiddenStateIsNeverObserved : Obligations.HiddenStateIsNeverObserved :=
  ⟨fun _ _ => step_agree, fun a _ _ => hostAct_agree a⟩

end Sys2Proof.Machine

/-! The memory and its byte order (spec/20_memory.md): little-endian words, and the command channel as a sequence of
commands. -/

namespace Sys2Proof

/-! ### Little-endian words (R34, R8) -/

/-- The number of a run of bytes of known length determines the bytes. -/
theorem leNat_inj : ∀ {xs ys : List Byte}, xs.length = ys.length → leNat xs = leNat ys → xs = ys
  | [], [], _, _ => rfl
  | x :: xs, y :: ys, hl, h => by
    have hx := x.isLt
    have hy := y.isLt
    simp only [leNat] at h
    obtain rfl : x = y := BitVec.eq_of_toNat_eq (by omega)
    rw [leNat_inj (Nat.succ.inj hl) (by omega)]

theorem le64Inv_toNat {bs : List Byte} (h : bs.length = 8) : (le64Inv bs).toNat = leNat bs := by
  have hlt := leNat_lt bs
  rw [h] at hlt
  exact BitVec.toNat_ofNat _ _ |>.trans (Nat.mod_eq_of_lt hlt)

/-- `le64` is the inverse of `le64_inv` on eight bytes. -/
theorem le64_le64Inv {bs : List Byte} (h : bs.length = 8) : le64 (le64Inv bs) = bs :=
  leNat_inj ((le64_length _).trans h.symm) ((leNat_le64 _).trans (le64Inv_toNat h))

/-- Byte `m` of a word as a quotient. -/
theorem le64_getD_toNat (w : Word) {m : Nat} (h : m < 8) :
    ((le64 w).getD m 0).toNat = w.toNat / 2 ^ (8 * m) % 2 ^ 8 := by
  rw [le64_getD w h, BitVec.extractLsb'_toNat, Nat.shiftRight_eq_div_pow]

/-- Settles O33: eight bytes and a word below 2^64 are the same number, and a number has one run of eight bytes. -/
theorem littleEndianRoundTrips : Obligations.LittleEndianRoundTrips :=
  ⟨le64Inv_le64, fun _ => le64_le64Inv, fun w _ => le64_getD_toNat w⟩

/-! ### The decoder on an encoded command (R64) -/

/-! An operand is found by passing the opcode byte and the operands before it (R55). -/

@[simp] theorem operand64_cons_succ (b : Byte) (c : List Byte) (j : Nat) :
    operand64 (b :: c) (j + 1) = operand64 c j := rfl

@[simp] theorem operand64_le64_append_add (w : Word) (c : List Byte) (j : Nat) :
    operand64 (le64 w ++ c) (j + 8) = operand64 c j := by
  rw [operand64, Nat.add_comm, ← List.drop_drop, List.drop_left' (le64_length w), operand64]

@[simp] theorem operand64_le64_append (w : Word) (c : List Byte) : operand64 (le64 w ++ c) 0 = w := by
  rw [operand64, List.drop_zero, List.take_left' (le64_length w), le64Inv_le64]

/-- A command at the head of the channel is decoded with its own length, whatever follows it (R33, R64). -/
theorem decodeCommand_commandBytes {i : Instr} (h : i.isCommand = true) (rest : List Byte) :
    decodeCommand (commandBytes i ++ rest) = .command i (commandBytes i).length := by
  cases i with
  | seed a b c d =>
    have hlen : 32 ≤ 8 + (8 + (8 + (8 + rest.length))) := by omega
    simp [commandBytes, encode, decodeCommand, commandLength, hlen]
  | fill len =>
    have hlen : ¬ 8 + rest.length + 1 < 9 := by omega
    simp [commandBytes, encode, decodeCommand, commandLength, hlen]
  | rndu | rdb | nxt32 | nxt64 => simp [commandBytes, encode, decodeCommand, commandLength]
  | _ => cases h

namespace Machine

/-! ### What a command's meaning does not look at (R33)

The ports are the ALU port, the command channel and the reset input. A meaning that is blind to them answers the same
whatever they hold, and passes them on; both halves are one equation. -/

/-- `s` with the ports of `p`. -/
def withPorts (p s : State) : State := { s with alu := p.alu, cmd := p.cmd, rst := p.rst }

/-- With other ports the answer is the same, with those ports in the next state. -/
def PortBlind (body : State → Res) : Prop :=
  ∀ p s, body (withPorts p s) = andThen (body s) fun t => .next (withPorts p t)

theorem andThen_assoc {α β γ : Type} (o : Answer α) (f : α → Answer β) (g : β → Answer γ) :
    andThen (andThen o f) g = andThen o fun a => andThen (f a) g := by
  cases o <;> rfl

/-- A blind meaning leaves the ports as they were. -/
theorem PortBlind.ports_kept {body : State → Res} (h : PortBlind body) {s t : State} (hn : body s = .next t) :
    withPorts s t = t := by
  have hs := h s s
  rw [show withPorts s s = s from rfl, hn] at hs
  exact (Host.Outcome.next.inj hs).symm

theorem portBlind_update {f : State → State} (h : ∀ p s, f (withPorts p s) = withPorts p (f s)) :
    PortBlind fun s => .next (f s) :=
  fun p s => congrArg _ (h p s)

theorem PortBlind.seq {f g : State → Res} (hf : PortBlind f) (hg : PortBlind g) :
    PortBlind fun s => andThen (f s) g := by
  intro p s
  simp only [hf p s, andThen_assoc]
  exact congrArg _ (funext fun t => hg p t)

/-- A loop is blind if its condition and its body are. -/
theorem PortBlind.loop {cond : State → Bool} {body : State → Res}
    (hc : ∀ p s, cond (withPorts p s) = cond s) (hb : PortBlind body) : ∀ n, PortBlind (whileDo cond body n)
  | 0 => fun _ _ => rfl
  | n + 1 => by
    intro p s
    rw [whileDo, whileDo, hc]
    split
    · exact hb.seq (PortBlind.loop hc hb n) p s
    · rfl

section
variable (c : Config)

theorem refill_withPorts (p s : State) : refill c (withPorts p s) = withPorts p (refill c s) := by
  simp only [refill, withPorts]

theorem emitByte_portBlind : PortBlind (emitByte c) := by
  have read (p : State) {q : State} (h : q.cur.toNat < 128) :
      emitByte c (withPorts p q) = andThen (emitByte c q) fun t => .next (withPorts p t) := by
    rw [emitByte_lt c h, emitByte_lt c (s := withPorts p q) h]
    rfl
  intro p s
  rcases Nat.lt_trichotomy s.cur.toNat 128 with h | h | h
  · exact read p h
  · have hs := cur_eq_128 h
    rw [emitByte_empty c hs, emitByte_empty c (s := withPorts p s) hs, refill_withPorts]
    exact read p (by simp)
  · rw [emitByte_gt c h, emitByte_gt c (s := withPorts p s) h]
    rfl

theorem takeByte_portBlind : PortBlind (takeByte c) :=
  (emitByte_portBlind c).seq (portBlind_update fun _ _ => rfl)

theorem drain_portBlind : PortBlind (drain c) := by
  intro p s
  rw [drain_eq, drain_eq]
  rfl

theorem bulk_portBlind : PortBlind (bulk c) := by
  intro p s
  rw [bulk_eq, bulk_eq]
  rfl

theorem tail_portBlind : PortBlind (tail c) :=
  fun p s => PortBlind.loop (fun _ _ => rfl) (takeByte_portBlind c) s.rem.toNat p s

theorem fill_portBlind (len : Word) : PortBlind (fill c len) := by
  have idle : PortBlind fun s => .next (enter .idle s) := portBlind_update fun _ _ => rfl
  have ending : PortBlind fun s => andThen (tail c (enter .tail s)) fun t => .next (enter .idle t) :=
    fun p s => (tail_portBlind c).seq idle p (enter .tail s)
  have middle := (bulk_portBlind c).seq ending
  exact fun p s => (drain_portBlind c).seq (fun p s => middle p (enter .bulk s)) p (acceptFill len s)

theorem seed_withPorts (a b d e : Word) (p s : State) :
    seed c a b d e (withPorts p s) = withPorts p (seed c a b d e s) := by
  unfold seed
  rfl

end

/-- The checks before a command look at STATUS only (R134). -/
theorem guarded_portBlind {body : State → Res} (h : PortBlind body) (op : Byte) (g : Bool) :
    PortBlind (guarded op g body) := by
  intro p s
  rcases s.status.check_cases g with hf | ⟨hf, rfl, hs⟩ | ⟨hf, hs⟩
  · rw [guarded_faulted hf, guarded_faulted (s := withPorts p s) hf]
    rfl
  · rw [guarded_unseeded hf hs, guarded_unseeded (s := withPorts p s) hf hs]
    rfl
  · rw [guarded_executes hf hs, guarded_executes (s := withPorts p s) hf hs]
    exact h p s

/-- No command's meaning looks at the ports, the bytes after it on the channel among them, or changes them (R33). -/
theorem exec_portBlind {i : Instr} (h : i.isCommand = true) : PortBlind (exec i) := by
  cases i with
  | seed a b d e => exact guarded_portBlind (portBlind_update (seed_withPorts _ a b d e)) 0x01 false
  | rndu => exact guarded_portBlind (portBlind_update fun _ _ => rfl) 0x02 true
  | rdb => exact guarded_portBlind (emitByte_portBlind _) 0x03 true
  | fill len => exact guarded_portBlind (fill_portBlind _ len) 0x04 true
  | nxt32 => exact guarded_portBlind (fill_portBlind _ 4) 0x05 true
  | nxt64 => exact guarded_portBlind (fill_portBlind _ 8) 0x06 true
  | _ => cases h

/-! ### A channel of commands (R33, R40) -/

/-- One step with a command at the head of the channel and `rest` behind it: the command's meaning on the empty channel,
and `rest` left on it. -/
theorem step_commandBytes {i : Instr} (hi : i.isCommand = true) {s : State} (h : TakesCommands s) (rest : List Byte) :
    step { s with cmd := commandBytes i ++ rest } =
      andThen (exec i { s with cmd := [] }) fun t => .next (withPorts { s with cmd := rest } t) := by
  have hd : consume (commandBytes i).length { s with cmd := commandBytes i ++ rest } =
      withPorts { s with cmd := rest } { s with cmd := [] } := by
    simp [consume, withPorts]
  rw [step_command (s := { s with cmd := commandBytes i ++ rest }) h (decodeCommand_commandBytes hi rest), hd]
  exact exec_portBlind hi _ _

/-- A run on a channel with a command at its head is the command's meaning and then the run on the rest. -/
theorem run_commandBytes {i : Instr} (hi : i.isCommand = true) {s : State} (h : TakesCommands s) (rest : List Byte)
    (n : Nat) :
    Host.Core.run Sys2Proof.core (n + 1) { s with cmd := commandBytes i ++ rest } =
      andThen (exec i { s with cmd := [] }) fun t =>
        Host.Core.run Sys2Proof.core n (withPorts { s with cmd := rest } t) :=
  (core_run_succ n _).trans ((congrArg (andThen · _) (step_commandBytes hi h rest)).trans (andThen_assoc _ _ _))

/-- Settles O46, by induction on the list: a command's step is its meaning with the rest of the channel carried along, and
leaves an engine that takes the next. -/
theorem channelRunsCommandsInOrder : Obligations.ChannelRunsCommandsInOrder := by
  intro is
  induction is with
  | nil => exact fun _ _ _ => rfl
  | cons i is ih =>
    intro s hs hall
    obtain ⟨hi, his⟩ := List.forall_mem_cons.1 hall
    refine (run_commandBytes hi hs (is.flatMap commandBytes) is.length).trans ?_
    rw [execAll]
    cases he : exec i { s with cmd := [] } with
    | next t =>
      have hkept : withPorts { s with cmd := [] } t = t := (exec_portBlind hi).ports_kept he
      have hrest := ih (withPorts { s with cmd := [] } t) hs his
      exact hrest.trans (congrArg (execAll is) hkept)
    | fault r => rfl
    | refused r => rfl

end Machine
end Sys2Proof

/-! The encoding (spec/30_encoding.md): what stands at the head of the command channel, and what the two decoders answer
there. -/

namespace Sys2Proof

/-! ### Encodings (R51 to R54, R58, R60) -/

/-- An instruction is written as command bytes exactly when it is a command. -/
theorem encode_eq_bytes_iff {i : Instr} {bs : List Byte} :
    encode i = .bytes bs ↔ i.isCommand = true ∧ commandBytes i = bs := by
  unfold Instr.isCommand commandBytes
  cases encode i <;> simp

/-- A command is as long as its opcode byte says, whatever follows it on the channel (R60). -/
theorem commandBytes_length {i : Instr} (h : i.isCommand = true) (rest : List Byte) :
    (commandBytes i).length = commandLength ((commandBytes i ++ rest).headD 0) := by
  cases i with
  | seed | rndu | rdb | fill | nxt32 | nxt64 => simp [commandBytes, encode, commandLength]
  | _ => cases h

/-- Eight bytes or more begin with a word in little-endian order (R55). -/
theorem exists_le64_append {bs : List Byte} (h : 8 ≤ bs.length) :
    ∃ w rest, bs = le64 w ++ rest ∧ bs.length = 8 + rest.length := by
  have htake : le64 (le64Inv (bs.take 8)) = bs.take 8 := le64_le64Inv (List.length_take_of_le h)
  refine ⟨le64Inv (bs.take 8), bs.drop 8, ?_, by rw [List.length_drop]; omega⟩
  rw [htake, List.take_append_drop]

/-! ### The head of the command channel (R56, R57, R60) -/

/-- A byte is 0x00 or at least 0x07, or the opcode of one of the six commands (R54, R56). -/
theorem opcode_cases (op : Byte) :
    (op.toNat = 0 ∨ 7 ≤ op.toNat) ∨
      op = 0x01 ∨ op = 0x02 ∨ op = 0x03 ∨ op = 0x04 ∨ op = 0x05 ∨ op = 0x06 := by
  bv_omega

/-- The channel holds less than its first command, or begins with a command's encoding, or with an illegal opcode byte.
Each of the three decides what the decoder answers. -/
theorem channel_cases (c : List Byte) :
    c.length < commandLength (c.headD 0) ∨
      (∃ i rest, i.isCommand = true ∧ c = commandBytes i ++ rest) ∨
      ∃ op rest, (op.toNat = 0 ∨ 7 ≤ op.toNat) ∧ c = op :: rest := by
  refine (Nat.lt_or_ge c.length (commandLength (c.headD 0))).imp_right fun hlen => ?_
  cases c with
  | nil => cases hlen
  | cons op bs =>
    rcases opcode_cases op with hop | rfl | rfl | rfl | rfl | rfl | rfl
    · exact .inr ⟨op, bs, hop, rfl⟩
    · have h32 : 32 ≤ bs.length := Nat.le_of_succ_le_succ hlen
      obtain ⟨a, bs, rfl, ha⟩ := exists_le64_append (bs := bs) (by omega)
      obtain ⟨b, bs, rfl, hb⟩ := exists_le64_append (bs := bs) (by omega)
      obtain ⟨d, bs, rfl, hd⟩ := exists_le64_append (bs := bs) (by omega)
      obtain ⟨e, bs, rfl, -⟩ := exists_le64_append (bs := bs) (by omega)
      exact .inl ⟨.seed a b d e, bs, rfl, by simp [commandBytes, encode]⟩
    · exact .inl ⟨.rndu, bs, rfl, rfl⟩
    · exact .inl ⟨.rdb, bs, rfl, rfl⟩
    · obtain ⟨len, bs, rfl, -⟩ := exists_le64_append (Nat.le_of_succ_le_succ hlen)
      exact .inl ⟨.fill len, bs, rfl, rfl⟩
    · exact .inl ⟨.nxt32, bs, rfl, rfl⟩
    · exact .inl ⟨.nxt64, bs, rfl, rfl⟩

/-! ### What the command decoder answers (R64) -/

theorem decodeCommand_incomplete {c : List Byte} (h : c.length < commandLength (c.headD 0)) :
    decodeCommand c = .wait := by
  cases c with
  | nil => rfl
  | cons op bs => exact if_pos h

/-- An illegal opcode byte is none of the six opcodes. -/
theorem ne_opcode_of_illegal {op : Byte} (h : op.toNat = 0 ∨ 7 ≤ op.toNat) {k : Nat} (h1 : 1 ≤ k) (h6 : k ≤ 6) :
    op ≠ BitVec.ofNat 8 k := by
  rintro rfl
  rw [BitVec.toNat_ofNat, Nat.mod_eq_of_lt (by omega)] at h
  omega

theorem commandLength_illegal {op : Byte} (h : op.toNat = 0 ∨ 7 ≤ op.toNat) : commandLength op = 1 := by
  simp [commandLength, ne_opcode_of_illegal h]

theorem decodeCommand_illegal {op : Byte} (h : op.toNat = 0 ∨ 7 ≤ op.toNat) (rest : List Byte) :
    decodeCommand (op :: rest) = .illegal op := by
  simp [decodeCommand, commandLength_illegal h, ne_opcode_of_illegal h]

/-- Only the encoding of a command decodes to it, and the decoder consumes that encoding and no more. -/
theorem decodeCommand_eq_command {c : List Byte} {i : Instr} {n : Nat} (h : decodeCommand c = .command i n) :
    i.isCommand = true ∧ n = (commandBytes i).length ∧ ∃ rest, c = commandBytes i ++ rest := by
  rcases channel_cases c with hshort | ⟨j, rest, hj, rfl⟩ | ⟨op, rest, hop, rfl⟩
  · rw [decodeCommand_incomplete hshort] at h
    cases h
  · rw [decodeCommand_commandBytes hj] at h
    cases h
    exact ⟨hj, rfl, rest, rfl⟩
  · rw [decodeCommand_illegal hop] at h
    cases h

/-- Only an illegal opcode byte is answered as illegal (R56). -/
theorem decodeCommand_eq_illegal {c : List Byte} {op : Byte} (h : decodeCommand c = .illegal op) :
    op.toNat = 0 ∨ 7 ≤ op.toNat := by
  rcases channel_cases c with hshort | ⟨j, rest, hj, rfl⟩ | ⟨o, rest, ho, rfl⟩
  · rw [decodeCommand_incomplete hshort] at h
    cases h
  · rw [decodeCommand_commandBytes hj] at h
    cases h
  · rw [decodeCommand_illegal ho] at h
    cases h
    exact ho

/-- Bytes behind a complete command or an illegal opcode byte are not looked at (R33). -/
theorem decodeCommand_append {c : List Byte} (h : decodeCommand c ≠ .wait) (rest : List Byte) :
    decodeCommand (c ++ rest) = decodeCommand c := by
  rcases channel_cases c with hshort | ⟨i, tl, hi, rfl⟩ | ⟨op, tl, hop, rfl⟩
  · exact absurd (decodeCommand_incomplete hshort) h
  · rw [List.append_assoc, decodeCommand_commandBytes hi, decodeCommand_commandBytes hi]
  · rw [List.cons_append, decodeCommand_illegal hop, decodeCommand_illegal hop]

/-! ### What the ALU decoder answers (R58, R59) -/

@[simp] theorem tableSelOf_tselBit (t : TableSel) : tableSelOf (tselBit t) = t := by
  cases t <;> rfl

/-- An ALU request's control word decodes to the request: each field is read back where the encoder put it. -/
theorem decodeAlu_of_encode {i : Instr} {ctl : BitVec 10} (h : encode i = .control ctl) :
    decodeAlu ctl = .request i := by
  cases i with
  | vadd | vxor | vsrl | vperm32 | vsplat =>
    cases h
    simp [decodeAlu]
  | _ => cases h

/-- The ALU decoder refuses every control word whose operation is 5, 6 or 7, whatever its other fields. -/
theorem decodeAlu_of_reserved {ctl : BitVec 10} (h : 5 ≤ (ctl.extractLsb' 0 3).toNat) :
    decodeAlu ctl = .reserved (ctl.extractLsb' 0 3) := by
  have hne (k : Nat) (hk : k < 5) : ctl.extractLsb' 0 3 ≠ BitVec.ofNat 3 k := by
    intro hop
    rw [hop, BitVec.toNat_ofNat, Nat.mod_eq_of_lt (by omega)] at h
    omega
  simp [decodeAlu, hne]

/-! ### The decoders and the encoder -/

/-- Settles O40: a command's bytes are read back at the head of any channel, and a control word field by field. -/
theorem decodeUndoesEncode : Obligations.DecodeUndoesEncode := by
  intro i
  cases he : encode i with
  | bytes bs =>
    obtain ⟨hi, rfl⟩ := encode_eq_bytes_iff.1 he
    exact decodeCommand_commandBytes hi
  | control ctl => exact decodeAlu_of_encode he

/-- Settles O41: the bytes consumed are the encoding of what was decoded. -/
theorem encodeUndoesDecode : Obligations.EncodeUndoesDecode := by
  intro c i n h
  obtain ⟨hi, rfl, rest, rfl⟩ := decodeCommand_eq_command h
  refine ⟨encode_eq_bytes_iff.2 ⟨hi, List.take_left.symm⟩, ?_, commandBytes_length hi rest⟩
  rw [List.length_append]
  exact Nat.le_add_right _ _

/-- Settles O42: an illegal byte is decoded as such alone, and a channel the decoder calls illegal begins with one. -/
theorem illegalOpcodesExactly : Obligations.IllegalOpcodesExactly := fun _ rest =>
  ⟨⟨decodeCommand_eq_illegal, fun h => decodeCommand_illegal h rest⟩, commandLength_illegal⟩

namespace Machine

/-! ### Steps that do not happen (R57, R59) -/

/-- A step is refused when the fetch stops. -/
theorem step_of_fetch_stop {s : State} {r : Refusal} (h : fetch s = .stop r) : step s = .refused r := by
  rw [step, h]

theorem fetchCommand_wait {s : State} (h : decodeCommand s.cmd = .wait) : fetchCommand s = .stop .awaitingCommand := by
  rw [fetchCommand, h]

theorem fetchAlu_reserved {s : State} {ctl : BitVec 10} {aluop : BitVec 3} (h : decodeAlu ctl = .reserved aluop) :
    fetchAlu ctl s = .stop (.reservedAluOp aluop) := by
  rw [fetchAlu, h]

/-- Settles O43: the decoder waits on an incomplete command, and a complete one hides what follows it. -/
theorem incompleteCommandWaits : Obligations.IncompleteCommandWaits := by
  refine ⟨fun s hs hshort => ?_, fun c rest h => decodeCommand_append h rest⟩
  have hwait : decodeCommand s.cmd = .wait := by
    rcases hshort with hempty | hlen
    · rw [hempty, decodeCommand]
    · exact decodeCommand_incomplete hlen
  exact step_of_fetch_stop ((fetch_takes hs).trans (fetchCommand_wait hwait))

/-- Settles O9: the request is looked at first, and the decoder refuses it by its operation. -/
theorem reservedAluOpsAreRefused : Obligations.ReservedAluOpsAreRefused := fun _ _ hr ha h5 =>
  step_of_fetch_stop ((fetch_pending hr ha).trans (fetchAlu_reserved (decodeAlu_of_reserved h5)))

end Machine
end Sys2Proof

/-! The vector-lane ALU (spec/40_vector_alu.md): the 8 x 32 view of a vector, PERM32 as a gather on that view, and what
a request on the ALU port answers. -/

namespace Sys2Proof.Machine

/-! ### The 8 x 32 view (R76) -/

theorem half_even (v : Vec) : ∀ i : Fin 4, half v ⟨2 * i.val, by omega⟩ = lowHalf (v.get i) :=
  Fin.forall_four.2 ⟨rfl, rfl, rfl, rfl⟩

theorem half_odd (v : Vec) : ∀ i : Fin 4, half v ⟨2 * i.val + 1, by omega⟩ = highHalf (v.get i) :=
  Fin.forall_four.2 ⟨rfl, rfl, rfl, rfl⟩

theorem ofHalves_get (h : Oct Half) : ∀ i : Fin 4, (ofHalves h).get i =
    joinHalves (h.get ⟨2 * i.val + 1, by omega⟩) (h.get ⟨2 * i.val, by omega⟩) :=
  Fin.forall_four.2 ⟨rfl, rfl, rfl, rfl⟩

/-- A vector is decided by its eight halves. -/
theorem half_ext {v w : Vec} (h : ∀ e, half v e = half w e) : v = w := by
  rw [← ofHalves_halves v, ← ofHalves_halves w, Oct.ext_get h]

theorem joinHalves_toNat (high low : Half) : (joinHalves high low).toNat = low.toNat + 2 ^ 32 * high.toNat := by
  rw [joinHalves, BitVec.toNat_append, ← Nat.shiftLeft_add_eq_or_of_lt low.isLt, Nat.shiftLeft_eq]
  omega

theorem ofHalves_get_toNat (h : Oct Half) (i : Fin 4) : ((ofHalves h).get i).toNat =
    (h.get ⟨2 * i.val, by omega⟩).toNat + 2 ^ 32 * (h.get ⟨2 * i.val + 1, by omega⟩).toNat := by
  rw [ofHalves_get, joinHalves_toNat]

/-- Bit `j` of lane `i` is bit `64*i + j` of the flat value (R10). The rule for a bit of an append speaks of a sum of
widths, so the 256 bits are first written as one. -/
theorem flat_getLsbD (v : Vec) {j : Nat} (hj : j < 64) :
    ∀ i : Fin 4, (flat v).getLsbD (64 * i.val + j) = (v.get i).getLsbD j := by
  have hflat (k : Nat) : (flat v).getLsbD k =
      (v.e3 ++ v.e2 ++ v.e1 ++ v.e0 : BitVec (64 + 64 + 64 + 64)).getLsbD k := rfl
  simp only [Fin.forall_four, hflat, BitVec.getLsbD_append, Fin.coe_ofNat_eq_mod, Nat.reduceMod, Quad.get_zero,
    Quad.get_one, Quad.get_two, Quad.get_three]
  grind

/-- Half `k` of lane `i`, cut out of the flat value. -/
theorem flat_extract (v : Vec) (i : Fin 4) {k : Nat} (hk : k + 32 ≤ 64) :
    (flat v).extractLsb' (64 * i.val + k) 32 = (v.get i).extractLsb' k 32 := by
  ext j hj
  rw [BitVec.getElem_extractLsb', BitVec.getElem_extractLsb', Nat.add_assoc, flat_getLsbD v (by omega)]

/-- An element of the view is the low or the high half of a lane. -/
theorem element_cases (e : Fin 8) :
    ∃ i : Fin 4, e = ⟨2 * i.val, by omega⟩ ∨ e = ⟨2 * i.val + 1, by omega⟩ := by
  revert e
  decide

theorem half_eq_flat_extract (v : Vec) (e : Fin 8) : half v e = (flat v).extractLsb' (32 * e.val) 32 := by
  obtain ⟨i, rfl | rfl⟩ := element_cases e
  · rw [half_even, lowHalf, ← flat_extract v i (by omega), Nat.add_zero, ← Nat.mul_assoc]
  · rw [half_odd, highHalf, ← flat_extract v i (by omega), Nat.mul_add, ← Nat.mul_assoc]

/-- Settles O7: each half is cut out of the flat value, and the inverse view joins two halves to a lane. -/
theorem halvesAreFlatBits : Obligations.HalvesAreFlatBits := by
  intro v
  have lane (i : Fin 4) := ofHalves_get_toNat (halves v) i
  rw [ofHalves_halves] at lane
  exact ⟨half_eq_flat_extract v, fun i => ⟨half_even v i, half_odd v i, lane i⟩, ofHalves_halves v,
    ofHalves_get_toNat⟩

/-! ### PERM32 (R77, R78, R81) -/

/-- A table that undoes the one before it gives every half back. -/
theorem perm32_perm32 (v : Vec) {P Q : PermTable} (h : ∀ e, P.get (Q.get e) = e) : perm32 (perm32 v P) Q = v :=
  half_ext fun e => by rw [half_perm32, half_perm32, h]

theorem perm32_get (v : Vec) (P : PermTable) (i : Fin 4) : (perm32 v P).get i =
    joinHalves (half v (P.get ⟨2 * i.val + 1, by omega⟩)) (half v (P.get ⟨2 * i.val, by omega⟩)) := by
  rw [perm32, ofHalves_get, Oct.get_ofFn, Oct.get_ofFn]

/-- The entries for lane `i` in table B are those for the next lane in table A (R81). -/
theorem permB_rotates_permA : ∀ i : Fin 4,
    Config.engine.permB.get ⟨2 * i.val, by omega⟩ = Config.engine.permA.get ⟨2 * (i + 1).val, by omega⟩ ∧
    Config.engine.permB.get ⟨2 * i.val + 1, by omega⟩ = Config.engine.permA.get ⟨2 * (i + 1).val + 1, by omega⟩ := by
  decide

/-- Settles O6: a gather composed with a gather reads through both tables, and the two tables of the engine differ by a
rotation of one lane. -/
theorem inverseTablesUndoPermutation : Obligations.InverseTablesUndoPermutation := by
  refine ⟨fun v P Q h => perm32_perm32 v h, fun v i => ?_⟩
  obtain ⟨heven, hodd⟩ := permB_rotates_permA i
  calc (perm32 v Config.engine.permB).get i
    _ = joinHalves (half v (Config.engine.permB.get ⟨2 * i.val + 1, by omega⟩))
          (half v (Config.engine.permB.get ⟨2 * i.val, by omega⟩)) := perm32_get _ _ _
    _ = (perm32 v Config.engine.permA).get (i + 1) := by rw [heven, hodd, perm32_get]

theorem permB_permA : ∀ e, Config.engine.permB.get (Config.engine.permA.get e) = e := by
  decide

theorem permA_permB : ∀ e, Config.engine.permA.get (Config.engine.permB.get e) = e := by
  decide

/-! ### What a request is and what it answers (R58, R59, R79) -/

/-- The ALU decoder in the fields of the control word; a request reads no field but those its operation uses. -/
@[simp] theorem decodeAlu_controlWord (tsel : BitVec 1) (shamt : BitVec 6) (aluop : BitVec 3) :
    decodeAlu (controlWord tsel shamt aluop) =
      if aluop = 0 then .request .vadd
      else if aluop = 1 then .request .vxor
      else if aluop = 2 then .request (.vsrl shamt)
      else if aluop = 3 then .request (.vperm32 (tableSelOf tsel))
      else if aluop = 4 then .request .vsplat
      else .reserved aluop := by
  simp only [decodeAlu, controlWord_aluop, controlWord_shamt, controlWord_tsel]

theorem exec_vadd (s : State) : exec .vadd s = .next (driveResult (vadd s.alu.a s.alu.b) s) := rfl

theorem exec_vxor (s : State) : exec .vxor s = .next (driveResult (vxor s.alu.a s.alu.b) s) := rfl

theorem exec_vsrl (n : BitVec 6) (s : State) : exec (.vsrl n) s = .next (driveResult (vsrl s.alu.a n) s) := rfl

theorem exec_vperm32 (t : TableSel) (s : State) :
    exec (.vperm32 t) s = .next (driveResult (vperm32 Config.engine s.alu.a t) s) := rfl

theorem exec_vsplat (s : State) : exec .vsplat s = .next (driveResult (vsplat s.alu.x) s) := rfl

@[simp] theorem driveResult_result (v : Vec) (s : State) : (driveResult v s).alu.r = v := rfl

/-- Every ALU request completes, driving the result bus with one function of the operand buses. -/
theorem exec_of_not_command {i : Instr} (h : i.isCommand = false) :
    ∃ f : Vec → Vec → Word → Vec, ∀ s, exec i s = .next (driveResult (f s.alu.a s.alu.b s.alu.x) s) := by
  cases i with
  | vadd => exact ⟨fun a b _ => vadd a b, exec_vadd⟩
  | vxor => exact ⟨fun a b _ => vxor a b, exec_vxor⟩
  | vsrl n => exact ⟨fun a _ _ => vsrl a n, exec_vsrl n⟩
  | vperm32 t => exact ⟨fun a _ _ => vperm32 Config.engine a t, exec_vperm32 t⟩
  | vsplat => exact ⟨fun _ _ x => vsplat x, exec_vsplat⟩
  | _ => cases h

/-- Settles O1: addition of two lanes as words is addition of their numbers modulo 2^64. -/
theorem vaddAddsEachLaneModulo : Obligations.VaddAddsEachLaneModulo := by
  refine fun s tsel shamt => ⟨by simp, _, exec_vadd s, fun i => ?_, rfl⟩
  rw [driveResult_result, vadd_get, BitVec.toNat_add]

/-- Settles O2: exclusive or of two lanes as words is taken bit by bit. -/
theorem vxorXorsEachBit : Obligations.VxorXorsEachBit := by
  refine fun s tsel shamt => ⟨by simp, _, exec_vxor s, fun i j => ?_, rfl⟩
  rw [driveResult_result, vxor_get, BitVec.getLsbD_xor]

/-- Settles O3: a logical right shift by `n` is the quotient by `2^n`. -/
theorem vsrlDividesEachLane : Obligations.VsrlDividesEachLane := by
  refine fun s tsel n => ⟨by simp, _, exec_vsrl n s, fun i => ?_, rfl⟩
  rw [driveResult_result, vsrl_get, BitVec.toNat_ushiftRight, Nat.shiftRight_eq_div_pow]

/-- Settles O4: the bus is driven with VSPLAT of the scalar, every lane of which is the scalar. -/
theorem vsplatCopiesScalar : Obligations.VsplatCopiesScalar := fun s _ _ =>
  ⟨by simp, _, exec_vsplat s, vsplat_get s.alu.x, rfl⟩

/-- Settles O5: each half is read off the engine's table, and each table undoes the other. -/
theorem vperm32MovesHalves : Obligations.Vperm32MovesHalves := fun s _ =>
  ⟨by simp [tableSelOf], by simp [tableSelOf],
    ⟨_, exec_vperm32 .permA s, rfl, rfl⟩, ⟨_, exec_vperm32 .permB s, rfl, rfl⟩,
    fun a => ⟨perm32_perm32 a permB_permA, perm32_perm32 a permA_permB⟩⟩

/-- Settles O8: the answer is the same state with the result bus driven by a function of the operand buses. -/
theorem aluRequestsWriteOnlyResultBus : Obligations.AluRequestsWriteOnlyResultBus := by
  constructor
  · intro i s q hi ha hb hx
    obtain ⟨f, hf⟩ := exec_of_not_command hi
    refine ⟨_, _, hf s, hf q, ?_⟩
    rw [driveResult_result, driveResult_result, ha, hb, hx]
  · intro i s t hi ht
    obtain ⟨f, hf⟩ := exec_of_not_command hi
    rw [hf] at ht
    cases ht
    exact ⟨rfl, fun _ => rfl, rfl, rfl, rfl, rfl, rfl, rfl, rfl, rfl, rfl, rfl, rfl⟩

end Sys2Proof.Machine

/-! SEED (spec/41_seed.md): the initial state vectors, the warm-up and what it leaves, what SEED answers, and the ways
STATUS can change. -/

namespace Sys2Proof.Machine

/-! ### The initial state vectors (R91) -/

/-- Initial vector `i` is made from group `i` of the key schedule and the two seed words of its place. -/
theorem expandSeed_get (c : Config) (w : Quad Word) : ∀ i : Fin 4,
    (expandSeed c w.e0 w.e1 w.e2 w.e3).get i = seedVector c i (w.get (seedLow i)) (w.get (seedHigh i)) :=
  Fin.forall_four.2 ⟨rfl, rfl, rfl, rfl⟩

/-- Settles O16: the lanes of the vector that R91 builds for place `i`. -/
theorem seedExpansionLanes : Obligations.SeedExpansionLanes := by
  intro c w i
  rw [expandSeed_get]
  exact ⟨rfl, rfl, rfl, rfl⟩

/-! ### The warm-up (R93) -/

/-- Settles O17: an iteration counted at the end is a ROUND and the cross assignment. -/
theorem warmUpCrossAssigns : Obligations.WarmUpCrossAssigns :=
  ⟨fun _ _ => rfl, fun c g n => warmUp_succ c n g, rfl⟩

/-- The last thing a warm-up does is the cross assignment. -/
theorem warmUp_crossed (c : Config) {n : Nat} (h : 0 < n) (g : Gen) :
    (warmUp c n g).s =
      ⟨(warmUp c n g).o.e3, (warmUp c n g).o.e2, (warmUp c n g).o.e1, (warmUp c n g).o.e0⟩ := by
  cases n with
  | zero => cases h
  | succ n =>
    rw [warmUp_succ]
    rfl

/-- The warm-up drops the vectors its rounds return: W is not written. -/
theorem warmUp_w (c : Config) (n : Nat) (g : Gen) : (warmUp c n g).w = g.w := by
  induction n generalizing g with
  | zero => rfl
  | succ n ih => exact ih _

/-- The cross assignment leaves CTR alone, so a warm-up counts as the same number of rounds does. -/
theorem warmUp_ctr (c : Config) (n : Nat) (g : Gen) : (warmUp c n g).ctr = (genAfter c n g).ctr := by
  induction n with
  | zero => rfl
  | succ n ih =>
    rw [warmUp_succ, genAfter_succ', roundUnpack_ctr, ← ih]
    rfl

/-- CTR after some rounds is decided by CTR before them. -/
theorem genAfter_ctr_congr (c : Config) (n : Nat) {g h : Gen} (e : g.ctr = h.ctr) :
    (genAfter c n g).ctr = (genAfter c n h).ctr :=
  Quad.ext_get fun i => by rw [genAfter_ctr_get, genAfter_ctr_get, e]

/-- Rounds after a warm-up count on from its iterations. -/
theorem genAfter_warmUp_ctr (c : Config) (m n : Nat) (g : Gen) :
    (genAfter c n (warmUp c m g)).ctr = (genAfter c (m + n) g).ctr := by
  rw [genAfter_add]
  exact genAfter_ctr_congr c n (warmUp_ctr c m g)

/-! ### SEED (R90, R92, R94) -/

/-- The registers the warm-up begins from: the expanded seed, and O and CTR zero (R91, R92). -/
def seedStart (c : Config) (a b d e : Word) (g : Gen) : Gen :=
  { g with s := expandSeed c a b d e, o := zeroVecs, ctr := zeroVec }

@[simp] theorem seed_gen (c : Config) (a b d e : Word) (s : State) :
    (seed c a b d e s).gen = warmUp c c.warmup (seedStart c a b d e s.gen) := by
  unfold seed
  rfl

/-- Nothing of the registers from before SEED decides the registers after it (R96). -/
theorem seed_regs (c : Config) (a b d e : Word) (s q : State) :
    SameRegs (seed c a b d e s).gen (seed c a b d e q).gen := by
  rw [seed_gen, seed_gen]
  exact warmUp_congr c _ ⟨rfl, rfl, rfl⟩

theorem exec_seed_unfaulted {s : State} (h : s.status.fault = false) (a b d e : Word) :
    exec (.seed a b d e) s = .next (seed Config.engine a b d e s) :=
  (exec_seed a b d e s).trans (guarded_unfaulted h)

theorem exec_seed_faulted {s : State} (h : s.status.fault = true) (a b d e : Word) :
    exec (.seed a b d e) s = .next s :=
  (exec_seed a b d e s).trans (guarded_faulted h)

/-- Settles O18: the answer is `seed`, field by field. -/
theorem seedStartsNewStream : Obligations.SeedStartsNewStream := by
  refine fun s a b d e => ⟨fun hf => exec_seed_faulted hf a b d e, fun hf => ⟨_, exec_seed_unfaulted hf a b d e, ?_⟩⟩
  have hw : (seed Config.engine a b d e s).gen.w = s.gen.w := by
    rw [seed_gen, warmUp_w]
    rfl
  have hbuf : SameBuf s (seed Config.engine a b d e s) := fun _ => by rw [seed_buf]
  exact ⟨seed_gen .., seed_cur .., seed_status .., hw, hbuf, seed_rem .., seed_phase .., seed_alu .., seed_cmd ..,
    seed_resp .., seed_rst ..⟩

/-- SEED zeroes CTR and runs thirteen rounds: `n` rounds later CTR is as after `13 + n` rounds from zero (R13, R95). -/
theorem genAfter_seed_ctr (a b d e : Word) (s : State) (n : Nat) (i : Fin 4) :
    ((genAfter Config.engine n (seed Config.engine a b d e s).gen).ctr.get i).toNat =
      (13 + n) * (2 * i.val + 1) % 2 ^ 64 := by
  rw [seed_gen, genAfter_warmUp_ctr]
  exact counterCountsRounds Config.engine _ (13 + n) i (by decide) rfl

/-- CTR right after SEED (R95 item 1). -/
theorem seed_ctr (a b d e : Word) (s : State) : (seed Config.engine a b d e s).gen.ctr = ⟨13, 39, 65, 91⟩ := by
  refine Quad.ext_get fun i => BitVec.eq_of_toNat_eq ((genAfter_seed_ctr a b d e s 0 i).trans ?_)
  revert i
  decide

/-- Settles O19: the counter law, and the cross assignment that ends the warm-up. -/
theorem afterSeedWhateverTheSeed : Obligations.AfterSeedWhateverTheSeed := by
  intro s t a b d e hf ht
  rw [exec_seed_unfaulted hf] at ht
  cases ht
  have hcross := warmUp_crossed Config.engine (n := Config.engine.warmup) (by decide)
    (seedStart Config.engine a b d e s.gen)
  rw [← seed_gen] at hcross
  exact ⟨seed_ctr a b d e s, congrArg Quad.e0 hcross, congrArg Quad.e1 hcross, congrArg Quad.e2 hcross,
    congrArg Quad.e3 hcross, seed_cur .., by rw [seed_status], by rw [seed_status]; exact hf, oneRound_ret ..,
    genAfter_seed_ctr a b d e s⟩

/-- Settles O20: S, O and CTR are written before they are read. -/
theorem seedForgetsThePast : Obligations.SeedForgetsThePast := fun s q a b d e hs hq =>
  ⟨_, _, exec_seed_unfaulted hs a b d e, exec_seed_unfaulted hq a b d e, seed_regs _ a b d e s q,
    (seed_cur ..).trans (seed_cur ..).symm⟩

/-! ### How STATUS changes (R94, R131, R132, R134) -/

/-- An instruction is a SEED, a generating command, or an ALU request. -/
theorem instr_kind_cases (i : Instr) :
    (∃ a b d e, i = .seed a b d e) ∨ (i = .rndu ∨ isByteStream i = true) ∨ i.isCommand = false := by
  cases i with
  | seed a b d e => exact .inl ⟨a, b, d, e, rfl⟩
  | rndu => exact .inr (.inl (.inl rfl))
  | rdb | fill | nxt32 | nxt64 => exact .inr (.inl (.inr rfl))
  | vadd | vxor | vsrl | vperm32 | vsplat => exact .inr (.inr rfl)

/-- A generating command makes the checks of R134 with its own opcode byte, and its own effect leaves STATUS alone. -/
theorem exec_generating {i : Instr} (hi : i = .rndu ∨ isByteStream i = true) :
    ∃ body : State → Res, exec i = guarded ((commandBytes i).headD 0) true body ∧
      ∀ {s t}, body s = .next t → t.status = s.status := by
  rcases hi with rfl | hi
  · refine ⟨_, funext exec_rndu, fun h => ?_⟩
    cases h
    exact rndu_status ..
  · cases i with
    | rdb => exact ⟨_, funext exec_rdb, fun h => (emitByte_outside h).1⟩
    | fill len => exact ⟨_, funext (exec_fill len), fun h => (fill_outside h).1⟩
    | nxt32 => exact ⟨_, funext exec_nxt32, fun h => (fill_outside h).1⟩
    | nxt64 => exact ⟨_, funext exec_nxt64, fun h => (fill_outside h).1⟩
    | _ => cases hi

/-- An ALU request drives its result bus and leaves STATUS alone (R79). -/
theorem exec_status_of_not_command {i : Instr} (hi : i.isCommand = false) {s t : State} (h : exec i s = .next t) :
    t.status = s.status := by
  obtain ⟨f, hf⟩ := exec_of_not_command hi
  rw [hf] at h
  cases h
  exact driveResult_status ..

/-- STATUS after an instruction that completes: SEED sets SEEDED, a generating command of an engine that is not seeded
enters NOT_SEEDED with its opcode byte, and both only where FAULT is clear; else it stays. -/
theorem exec_status {i : Instr} {s t : State} (h : exec i s = .next t) :
    t.status = s.status ∨ (s.status.fault = false ∧
      ((∃ a b d e, i = .seed a b d e ∧ t.status = { s.status with seeded := true } ∧ t.cur = 128) ∨
        ((i = .rndu ∨ isByteStream i = true) ∧ s.status.seeded = false ∧
          t.status =
            { s.status with fault := true, cause := .notSeeded, finfo := (commandBytes i).headD 0 }))) := by
  rcases instr_kind_cases i with ⟨a, b, d, e, rfl⟩ | hi | hi
  · rcases s.status.fault.eq_false_or_eq_true with hf | hf
    · rw [exec_seed_faulted hf] at h
      cases h
      exact .inl rfl
    · rw [exec_seed_unfaulted hf] at h
      cases h
      exact .inr ⟨hf, .inl ⟨a, b, d, e, rfl, seed_status .., seed_cur ..⟩⟩
  · obtain ⟨body, he, hbody⟩ := exec_generating hi
    rw [he] at h
    rcases s.status.check_cases true with hf | ⟨hf, _, hs⟩ | ⟨hf, hs⟩
    · rw [guarded_faulted hf] at h
      cases h
      exact .inl rfl
    · rw [guarded_unseeded hf hs] at h
      cases h
      exact .inr ⟨hf, .inr ⟨hi, hs, raise_status ..⟩⟩
    · rw [guarded_executes hf hs] at h
      exact .inl (hbody h)
  · exact .inl (exec_status_of_not_command hi h)

/-- The ALU decoder answers ALU requests only (R59). -/
theorem decodeAlu_request {ctl : BitVec 10} {i : Instr} (h : decodeAlu ctl = .request i) : i.isCommand = false := by
  simp only [decodeAlu] at h
  split_ifs at h <;> cases h <;> rfl

/-- A step that happens takes a command from the channel, an illegal opcode byte from the channel, or a request from the
ALU port. -/
theorem step_eq_next {s t : State} (h : step s = .next t) :
    (TakesCommands s ∧
      ((∃ i n, decodeCommand s.cmd = .command i n ∧ exec i (consume n s) = .next t) ∨
        ∃ op, decodeCommand s.cmd = .illegal op ∧ t = illegalOpcode op (consume 1 s))) ∨
    ∃ i, i.isCommand = false ∧ exec i { s with alu := { s.alu with req := none } } = .next t := by
  rcases s.rst.eq_false_or_eq_true with hr | hr
  · rw [step_heldInReset hr] at h
    cases h
  · cases ha : s.alu.req with
    | none =>
      have hs : TakesCommands s := ⟨hr, ha⟩
      rw [step, fetch_takes hs, fetchCommand] at h
      refine .inl ⟨hs, ?_⟩
      cases hd : decodeCommand s.cmd with
      | wait =>
        rw [hd] at h
        cases h
      | command i n =>
        rw [hd] at h
        exact .inl ⟨i, n, rfl, h⟩
      | illegal op =>
        rw [hd] at h
        cases h
        exact .inr ⟨op, rfl, rfl⟩
    | some ctl =>
      rw [step, fetch_pending hr ha, fetchAlu] at h
      cases hd : decodeAlu ctl with
      | request i =>
        rw [hd] at h
        exact .inr ⟨i, decodeAlu_request hd, h⟩
      | reserved o =>
        rw [hd] at h
        cases h

/-- Fault entry for an illegal opcode byte, where FAULT is clear (R131, R134). -/
theorem illegalOpcode_status (op : Byte) (s : State) :
    (illegalOpcode op s).status = s.status ∨ (s.status.fault = false ∧
      (illegalOpcode op s).status = { s.status with fault := true, cause := .illegalOpcode, finfo := op }) := by
  rcases s.status.fault.eq_false_or_eq_true with hf | hf
  · exact .inl (by rw [illegalOpcode, if_pos hf])
  · exact .inr ⟨hf, by simp [illegalOpcode, hf]⟩

/-- The opcode byte of a decoded command is the byte at the head of the channel. -/
theorem headD_of_decodeCommand {c : List Byte} {i : Instr} {n : Nat} (h : decodeCommand c = .command i n) :
    (commandBytes i).headD 0 = c.headD 0 := by
  obtain ⟨hi, _, rest, rfl⟩ := decodeCommand_eq_command h
  cases i with
  | seed | rndu | rdb | fill | nxt32 | nxt64 => rfl
  | _ => cases hi

/-- A host action changes STATUS only as the release of an asserted reset (R150, R160). -/
theorem hostAct_status (a : HostAction) (s : State) :
    (hostAct a s).status = s.status ∨
      (a = .releaseReset ∧ s.rst = true ∧ (hostAct a s).status = ⟨false, false, .none, 0⟩) := by
  cases a with
  | send | take | assertReset => exact .inl rfl
  | releaseReset =>
    rcases s.rst.eq_false_or_eq_true with hr | hr
    · exact .inr ⟨rfl, hr, by rw [hostAct_release hr, releaseReset_status]⟩
    · exact .inl (by rw [hostAct_release_idle hr])

/-- Settles O38: a step's instruction changes STATUS only as a SEED or as an unseeded generating command, and the fetch
leaves STATUS alone. -/
theorem statusChangesOnlyAsSaid : Obligations.StatusChangesOnlyAsSaid := by
  intro e s t h
  cases e with
  | host a =>
    cases h
    rcases hostAct_status a s with hsame | ⟨rfl, hr, hst⟩
    · exact .inl hsame
    · exact .inr (.inr ⟨rfl, hr, hst⟩)
  | engine =>
    rcases step_eq_next h with ⟨hs, ⟨i, n, hd, hn⟩ | ⟨op, hd, rfl⟩⟩ | ⟨i, hi, hn⟩
    · rcases exec_status hn with hsame | ⟨hf, ⟨a, b, d, e, rfl, hst, hcur⟩ | ⟨hi, hseed, hst⟩⟩
      · exact .inl hsame
      · exact .inr (.inl ⟨rfl, hs, hf, .inl ⟨a, b, d, e, n, hd, hst, hcur⟩⟩)
      · rw [headD_of_decodeCommand hd] at hst
        exact .inr (.inl ⟨rfl, hs, hf, .inr (.inr ⟨i, n, hd, hi, hseed, hst⟩)⟩)
    · rcases illegalOpcode_status op (consume 1 s) with hsame | ⟨hf, hst⟩
      · exact .inl hsame
      · exact .inr (.inl ⟨rfl, hs, hf, .inr (.inl ⟨op, hd, hst⟩)⟩)
    · have hsame := exec_status_of_not_command hi hn
      exact .inl hsame

end Sys2Proof.Machine

/-! The round generator (spec/42_round.md): the six steps of ROUND and the requests they are made of, the bytes of a
block, and RNDU. -/

namespace Sys2Proof.Machine

/-! ### The six steps of ROUND (R100 to R105) -/

/-- Settles O10: the vectors of each step are read off the step that writes them; the new S and O are the ones that
steps 4 and 6 write last. -/
theorem roundFollowsItsSixSteps : Obligations.RoundFollowsItsSixSteps := by
  intro c g s1 r
  have hs : ∀ k, r.2.s.get k = vadd (r.2.t.get k) (r.2.u.get k) := fun k => Quad.get_ofFn _ k
  have hengine : c = Config.engine → c.inc = ⟨1, 3, 5, 7⟩ ∧ c.shiftEven = 1 ∧ c.shiftOdd = 3 := by
    rintro rfl
    exact ⟨rfl, rfl, rfl⟩
  exact ⟨oneRound_ret c g, oneRound_ctr c g, rfl, rfl, hs, rfl, rfl, rfl, rfl, oneRound_w c g, hengine⟩

/-! ### ROUND as its ALU requests (R58, R59, R109)

The listing is served step by step: each step of ROUND is the requests of its own part. -/

theorem serveAll_append (c : Config) (ps qs : List AluRequest) (g : Gen) :
    serveAll c (ps ++ qs) g = (serveAll c ps g).bind (serveAll c qs) := by
  induction ps generalizing g with
  | nil => rfl
  | cons p ps ih =>
    rw [List.cons_append, serveAll, serveAll, Option.bind_assoc]
    exact congrArg _ (funext ih)

section
variable {ctl : BitVec 10} {c : Config} {g : Gen} {r a : VReg}

/-! What a request does to the registers, by what its control word decodes to -/

theorem serve_vadd (h : decodeAlu ctl = .request .vadd) {b : VReg} : serve c ⟨ctl, r, a, some b⟩ g =
    some (writeVReg g r (vadd (readVReg c g a) (readVReg c g b))) := by
  rw [serve, aluResult, h, busB, Option.map_some]

theorem serve_vxor (h : decodeAlu ctl = .request .vxor) {b : VReg} : serve c ⟨ctl, r, a, some b⟩ g =
    some (writeVReg g r (vxor (readVReg c g a) (readVReg c g b))) := by
  rw [serve, aluResult, h, busB, Option.map_some]

theorem serve_vsrl {n : BitVec 6} (h : decodeAlu ctl = .request (.vsrl n)) : serve c ⟨ctl, r, a, none⟩ g =
    some (writeVReg g r (vsrl (readVReg c g a) n)) := by
  rw [serve, aluResult, h, Option.map_some]

theorem serve_vperm32 {t : TableSel} (h : decodeAlu ctl = .request (.vperm32 t)) : serve c ⟨ctl, r, a, none⟩ g =
    some (writeVReg g r (vperm32 c (readVReg c g a) t)) := by
  rw [serve, aluResult, h, Option.map_some]

end

/-! The six control words of spec/30_encoding.md section 9 -/

theorem decodeAlu_vaddWord : decodeAlu 0x000#10 = .request .vadd := by decide
theorem decodeAlu_vxorWord : decodeAlu 0x001#10 = .request .vxor := by decide
theorem decodeAlu_shiftEvenWord : decodeAlu 0x00A#10 = .request (.vsrl 1) := by decide
theorem decodeAlu_shiftOddWord : decodeAlu 0x01A#10 = .request (.vsrl 3) := by decide
theorem decodeAlu_permAWord : decodeAlu 0x003#10 = .request (.vperm32 .permA) := by decide
theorem decodeAlu_permBWord : decodeAlu 0x203#10 = .request (.vperm32 .permB) := by decide

/-- The requests of step 1: the counter into S[1] and S[3], then its increment (R101). -/
def step1Requests : List AluRequest :=
  [⟨0x000, .s 1, .s 1, some .ctr⟩, ⟨0x000, .s 3, .s 3, some .ctr⟩, ⟨0x000, .ctr, .ctr, some .inc⟩]

/-- The requests of step 2: the shifted copies (R102). -/
def step2Requests : List AluRequest :=
  [⟨0x00A, .u 0, .s 0, none⟩, ⟨0x01A, .u 1, .s 1, none⟩, ⟨0x00A, .u 2, .s 2, none⟩, ⟨0x01A, .u 3, .s 3, none⟩]

/-- The requests of step 3: the permuted copies (R103). -/
def step3Requests : List AluRequest :=
  [⟨0x003, .t 0, .s 0, none⟩, ⟨0x203, .t 1, .s 1, none⟩, ⟨0x003, .t 2, .s 2, none⟩, ⟨0x203, .t 3, .s 3, none⟩]

/-- The requests of step 4: the new S (R104). -/
def step4Requests : List AluRequest :=
  [⟨0x000, .s 0, .t 0, some (.u 0)⟩, ⟨0x000, .s 1, .t 1, some (.u 1)⟩,
    ⟨0x000, .s 2, .t 2, some (.u 2)⟩, ⟨0x000, .s 3, .t 3, some (.u 3)⟩]

/-- The requests of step 6: the new O (R105). -/
def step6Requests : List AluRequest :=
  [⟨0x001, .o 0, .u 0, some (.t 1)⟩, ⟨0x001, .o 1, .u 2, some (.t 3)⟩,
    ⟨0x001, .o 2, .s 0, some (.s 3)⟩, ⟨0x001, .o 3, .s 2, some (.s 1)⟩]

theorem roundListing_eq :
    roundListing = step1Requests ++ step2Requests ++ step3Requests ++ step4Requests ++ step6Requests := rfl

section
variable (c : Config) (g : Gen)

theorem serveAll_step1 : serveAll c step1Requests g = some (roundStep1 c g) := by
  simp [step1Requests, serveAll, serve_vadd decodeAlu_vaddWord, readVReg, writeVReg, Quad.set, roundStep1]

theorem serveAll_step2 (he : c.shiftEven = 1) (ho : c.shiftOdd = 3) :
    serveAll c step2Requests g = some (roundStep2 c g) := by
  simp [step2Requests, serveAll, serve_vsrl decodeAlu_shiftEvenWord,
    serve_vsrl decodeAlu_shiftOddWord, readVReg, writeVReg, Quad.set, roundStep2,
    shiftOf, he, ho, Quad.ofFn]

theorem serveAll_step3 : serveAll c step3Requests g = some (roundStep3 c g) := by
  simp [step3Requests, serveAll, serve_vperm32 decodeAlu_permAWord,
    serve_vperm32 decodeAlu_permBWord, readVReg, writeVReg, Quad.set, roundStep3, tableOf,
    Quad.ofFn]

theorem serveAll_step4 : serveAll c step4Requests g = some (roundStep4 g) := by
  simp [step4Requests, serveAll, serve_vadd decodeAlu_vaddWord, readVReg, writeVReg, Quad.set, roundStep4, Quad.ofFn]

theorem serveAll_step6 : serveAll c step6Requests g = some (roundStep6 g) := by
  simp [step6Requests, serveAll, serve_vxor decodeAlu_vxorWord, readVReg, writeVReg, Quad.set, roundStep6]

/-- Serving the listing is ROUND wherever the configuration has the shifts that its control words carry. -/
theorem serveAll_roundListing (he : c.shiftEven = 1) (ho : c.shiftOdd = 3) :
    serveAll c roundListing g = some (oneRound c g).2 := by
  simp only [roundListing_eq, serveAll_append, serveAll_step1, serveAll_step2 c _ he ho, serveAll_step3,
    serveAll_step4, serveAll_step6, Option.bind_some]
  rfl

end

theorem shifts_of_wf {c : Config} (h : c.wf = true) : c.shiftEven = 1 ∧ c.shiftOdd = 3 := by
  simp only [Config.wf, Config.roundFixed, Bool.and_eq_true, beq_iff_eq] at h
  obtain ⟨⟨⟨_, ⟨⟨_, heven⟩, hodd⟩⟩, _⟩, _⟩ := h
  exact ⟨heven, hodd⟩

/-- Settles O11: the counts are read off the listing, and a well-formed configuration has the listing's shifts. -/
theorem roundIsNineteenRequests : Obligations.RoundIsNineteenRequests := by
  refine ⟨rfl, by decide, by decide, by decide, by decide, fun _ _ => rfl, fun c g hw => ?_⟩
  obtain ⟨heven, hodd⟩ := shifts_of_wf hw
  exact serveAll_roundListing c g heven hodd

/-! ### The bytes of a block (R106, R107) -/

@[simp] theorem unpack_get (ret : Quad Vec) (g i : Fin 4) : ((unpack ret).get g).get i = (ret.get g).get i.rev := by
  rw [unpack, Quad.get_ofFn, Quad.get_ofFn]

/-- Settles O12: byte `32*g + 8*i + m` is byte `m` of word `4*g + i`. -/
theorem blockByteIsReversedLaneByte : Obligations.BlockByteIsReversedLaneByte := by
  refine fun ret => ⟨blockBytes_length _, unpack_get ret, fun g i m hm => ?_⟩
  have hplace : 32 * g.val + 8 * i.val + m = 8 * (4 * g.val + i.val) + m := by omega
  rw [hplace, blockBytes_getD _ (by omega) hm, wordList_getD, unpack_get]

/-! ### RNDU (R108) -/

theorem exec_rndu_ready {s : State} (h : Ready s) : exec .rndu s = .next (rndu Config.engine s) :=
  (exec_rndu s).trans (guarded_ready h)

/-- Fault entry on an engine that is not seeded decides all four fields of STATUS (R135). -/
theorem raise_unseeded {s : State} (hs : s.status.seeded = false) (cause : Cause) (info : Byte) :
    raise cause info s = { s with status := ⟨false, true, cause, info⟩ } := by
  rw [raise, ← hs]

/-- RNDU on an unfaulted engine that is not seeded (R132). -/
theorem exec_rndu_unseeded {s : State} (hf : s.status.fault = false) (hs : s.status.seeded = false) :
    exec .rndu s = .next { s with status := ⟨false, true, .notSeeded, 0x02⟩ } := by
  rw [exec_rndu, guarded_unseeded hf hs, raise_unseeded hs]

/-- Settles O14: the answer is `rndu`, field by field. -/
theorem rnduEmitsPreviousRound : Obligations.RnduEmitsPreviousRound := by
  refine fun s => ⟨fun h => ⟨_, exec_rndu_ready h, ?_⟩, exec_rndu_unseeded,
    decodeCommand_commandBytes (i := .rndu) rfl⟩
  have hregs : SameRegs (rndu Config.engine s).gen (oneRound Config.engine s.gen).2 := by
    rw [rndu_gen]
    exact roundUnpack_regs _ _
  have hbuf : SameBuf s (rndu Config.engine s) := fun _ => by rw [rndu_buf]
  exact ⟨rndu_resp .., hregs, rfl, rndu_cur .., hbuf, rndu_status .., rndu_rem .., rndu_phase .., rndu_alu ..,
    rndu_cmd .., rndu_rst ..⟩

/-- RNDU leaves CUR alone, so BUF holds as many bytes after it (R108, R155). -/
@[simp] theorem buffered_rndu (c : Config) (s : State) : buffered (rndu c s) = buffered s := rfl

/-- RNDU writes neither BUF nor CUR: the buffered part of the stream stays (R108, R155). -/
theorem streamByte_rndu_lt (c : Config) {s : State} {p : Nat} (h : p < buffered s) :
    streamByte c (rndu c s) p = streamByte c s p := by
  rw [streamByte_lt c (s := rndu c s) h, streamByte_lt c h, rndu_buf, rndu_cur]

/-- The blocks still to come are one further on, since RNDU has run the round of the first. -/
theorem streamByte_rndu_ge (c : Config) {s : State} {p : Nat} (h : buffered s ≤ p) :
    streamByte c (rndu c s) p = streamByte c s (p + 128) := by
  have hpos : p + 128 - buffered s = p - buffered s + 128 := Nat.sub_add_comm h
  rw [streamByte_ge c (s := rndu c s) h, streamByte_ge c (Nat.le_add_right_of_le h), buffered_rndu, rndu_gen, hpos,
    Nat.add_div_right _ (by decide), Nat.add_mod_right, genAfter_succ]

/-- Settles O15: the two sides of the boundary of the buffered bytes. -/
theorem rnduSkipsOneBlockOfTheStream : Obligations.RnduSkipsOneBlockOfTheStream := by
  intro s t h ht
  rw [exec_rndu_ready h] at ht
  cases ht
  exact ⟨fun _ => streamByte_rndu_lt _, fun _ => streamByte_rndu_ge _⟩

end Sys2Proof.Machine

/-! The byte stream (spec/43_byte_stream.md): what FILL and RDB leave, the bytes a run of commands takes, NXT32 and
NXT64 as fills, and the transition table of R121 against FILL. -/

namespace Sys2Proof.Machine

section
variable {s t u : State}

/-! ### A stretch of the stream taken (R119, R120, R122) -/

/-- `t` is `s` with `n` bytes of the stream taken: they are emitted, the rounds they need have run, CUR is where they
leave it, and the stream goes on behind them. -/
structure TookBytes (c : Config) (n : Nat) (s t : State) : Prop where
  resp : t.resp = s.resp ++ streamBytes c s n
  gen : t.gen = genAfter c (roundsFor s n) s.gen
  cur : t.cur.toNat = cursorAfter s n
  stream : ∀ p, streamByte c t p = streamByte c s (n + p)
  status : t.status = s.status

theorem roundsFor_of_le {n : Nat} (h : n ≤ buffered s) : roundsFor s n = 0 := by
  rw [roundsFor, Nat.min_eq_left h, Nat.sub_self]

theorem cursorAfter_of_le {n : Nat} (h : n ≤ buffered s) : cursorAfter s n = s.cur.toNat + n := if_pos h

theorem TookBytes.refl (c : Config) (s : State) : TookBytes c 0 s s where
  resp := (List.append_nil _).symm
  gen := by rw [roundsFor_of_le (Nat.zero_le _), genAfter_zero]
  cur := (cursorAfter_of_le (Nat.zero_le _)).symm
  stream p := by rw [Nat.zero_add]
  status := rfl

/-- The bytes BUF holds once `m` bytes have been taken. -/
theorem buffered_of_cur {m : Nat} (h : t.cur.toNat = cursorAfter s m) : buffered t = 128 - cursorAfter s m := by
  rw [buffered, h]

/-- The rounds of two stretches are those of the two together. -/
theorem roundsFor_add {m : Nat} (h : t.cur.toNat = cursorAfter s m) (n : Nat) :
    roundsFor s (m + n) = roundsFor s m + roundsFor t n := by
  have hb : buffered s = 128 - s.cur.toNat := rfl
  simp only [roundsFor, buffered_of_cur h, cursorAfter]
  split_ifs <;> omega

theorem cursorAfter_add {m : Nat} (h : t.cur.toNat = cursorAfter s m) (n : Nat) :
    cursorAfter s (m + n) = cursorAfter t n := by
  have hb : buffered s = 128 - s.cur.toNat := rfl
  simp only [buffered_of_cur h, h, cursorAfter]
  split_ifs <;> omega

/-- One stretch and the next are one stretch. -/
theorem TookBytes.trans {c : Config} {m n : Nat} (h : TookBytes c m s t) (k : TookBytes c n t u) :
    TookBytes c (m + n) s u where
  resp := by
    rw [k.resp, h.resp, List.append_assoc, streamBytes_add, ← funext h.stream]
    rfl
  gen := by rw [k.gen, h.gen, ← genAfter_add, roundsFor_add h.cur]
  cur := k.cur.trans (cursorAfter_add h.cur n).symm
  stream p := by rw [k.stream, h.stream, Nat.add_assoc]
  status := k.status.trans h.status

/-- States that took the same stretch cannot be told apart: a live cell holds a byte of the stream (R119). -/
theorem TookBytes.sameLive {c : Config} {n : Nat} (h : TookBytes c n s t) (k : TookBytes c n s u) : SameLive t u := by
  have hcur : t.cur = u.cur := BitVec.eq_of_toNat_eq (h.cur.trans k.cur.symm)
  have hgen : t.gen = u.gen := h.gen.trans k.gen.symm
  refine ⟨hgen ▸ ⟨rfl, rfl, rfl⟩, hcur, h.status.trans k.status.symm, fun a hc ha => ?_⟩
  rw [Memory.read_eq_some ha, Memory.read_eq_some ha, lookup_eq_streamByte c hc ha,
    lookup_eq_streamByte c (hcur ▸ hc) ha, h.stream, k.stream, hcur]

theorem TookBytes.resp_eq {c : Config} {n : Nat} (h : TookBytes c n s t) (k : TookBytes c n s u) : t.resp = u.resp :=
  h.resp.trans k.resp.symm

/-! ### FILL (R112 to R116, R122) -/

theorem tookBytes_fillEnd (c : Config) (n : Nat) (hc : s.cur.toNat ≤ 128) (hw : Memory.wf s.buf = true) :
    TookBytes c n s (fillEnd c n s) where
  resp := rfl
  gen := rfl
  cur := fillEnd_cur c n hc
  stream := streamByte_fillEnd c n hc hw
  status := rfl

/-- A FILL whose tail takes nothing leaves BUF alone (R113, R114). -/
theorem fillEnd_sameBuf (c : Config) {n : Nat} (h : (n - buffered s) % 128 = 0) : SameBuf s (fillEnd c n s) :=
  fun _ => by rw [fillEnd, if_pos h]

/-- A FILL whose tail refills BUF leaves the block of its last round there (R115). -/
theorem fillEnd_read (c : Config) {n : Nat} (hw : Memory.wf s.buf = true) (h : (n - buffered s) % 128 ≠ 0) (a : Nat)
    (ha : a < 128) : Memory.read (fillEnd c n s).buf a =
      some ((blockOf c (genAfter c (roundsFor s n - 1) s.gen)).getD a 0) := by
  rw [Memory.read_eq_some ha, fillEnd_lookup c n hw h ha]

theorem exec_fill_ready (h : Ready s) (hc : s.cur.toNat ≤ 128) (hw : Memory.wf s.buf = true) (len : Word) :
    exec (.fill len) s = .next (fillEnd Config.engine len.toNat s) := by
  rw [exec_fill, guarded_ready h, fill_eq _ _ _ hc hw]

/-- With nothing owed no phase takes a turn, wherever CUR stands (R116). -/
theorem fill_zero (c : Config) (s : State) : fill c 0 s = .next { s with rem := 0, phase := .idle } := by
  have hd : drain c (acceptFill 0 s) = .next (acceptFill 0 s) := by
    rw [drain_eq, acceptFill_rem, show (0 : Word).toNat = 0 from rfl, Nat.zero_min, advance_zero]
  rw [fill, hd, andThen_next, bulk_stop c _ (by simp), andThen_next, tail_none c rfl, andThen_next]
  rfl

/-! ### Runs of byte-stream commands (R119, R120) -/

/-- An engine between commands whose stream can be taken: ready, with BUF canonical and CUR at most 128. -/
structure Serves (s : State) : Prop where
  ready : Ready s
  curLe : s.cur.toNat ≤ 128
  bufWf : Memory.wf s.buf = true
  phaseIdle : s.phase = .idle

/-- A byte-stream command takes its bytes and leaves an engine that serves the next command. -/
theorem exec_byteStream {i : Instr} (hi : isByteStream i = true) (h : Serves s) :
    ∃ t, exec i s = .next t ∧ TookBytes Config.engine (bytesTaken i) s t ∧ Serves t := by
  have ht := tookBytes_fillEnd Config.engine (bytesTaken i) h.curLe h.bufWf
  exact ⟨_, byteStream_end hi h.ready h.curLe h.bufWf h.phaseIdle, { ht with },
    { ready := h.ready
      curLe := ht.cur ▸ cursorAfter_le _ h.curLe
      bufWf := fillEnd_wf _ _ h.bufWf
      phaseIdle := rfl }⟩

/-- A run of byte-stream commands takes the sum of their bytes. -/
theorem execAll_byteStream (is : List Instr) (hi : ∀ i ∈ is, isByteStream i = true) (h : Serves s) :
    ∃ t, execAll is s = .next t ∧ TookBytes Config.engine (totalTaken is) s t := by
  induction is generalizing s with
  | nil => exact ⟨s, rfl, .refl _ s⟩
  | cons i is ih =>
    obtain ⟨hhead, htail⟩ := List.forall_mem_cons.1 hi
    obtain ⟨t, ht, hit, hts⟩ := exec_byteStream hhead h
    obtain ⟨u, hu, htu⟩ := ih htail hts
    refine ⟨u, ?_, ?_⟩
    · rw [execAll, ht, andThen_next, hu]
    · exact hit.trans htu

theorem buffered_empty (h : s.cur = 128) : buffered s = 0 := by
  rw [buffered, h]
  rfl

/-- From an empty buffer every 128 bytes, and the rest, take a round (R122). -/
theorem roundsFor_empty (h : s.cur = 128) (n : Nat) : roundsFor s n = (n + 127) / 128 := by
  rw [roundsFor, buffered_empty h, Nat.min_zero, Nat.sub_zero]

theorem cursorAfter_empty (h : s.cur = 128) (n : Nat) :
    cursorAfter s n = if n % 128 = 0 then 128 else n % 128 := by
  have hc : s.cur.toNat = 128 := by rw [h]; rfl
  simp only [cursorAfter, buffered, hc]
  split_ifs <;> omega

theorem serves_seed (c : Config) (a b d e : Word) (hf : s.status.fault = false) (hw : Memory.wf s.buf = true)
    (hp : s.phase = .idle) : Serves (seed c a b d e s) where
  ready := by rw [Ready, seed_status]; exact ⟨hf, rfl⟩
  curLe := by rw [seed_cur]; decide
  bufWf := by rw [seed_buf]; exact hw
  phaseIdle := by rw [seed_phase]; exact hp

/-! ### RDB, and the commands before the first SEED (R111, R132) -/

/-- A byte-stream command on an unfaulted engine that is not seeded (R132). -/
theorem exec_byteStream_unseeded {i : Instr} (hi : isByteStream i = true) (hf : s.status.fault = false)
    (hs : s.status.seeded = false) :
    exec i s = .next { s with status := ⟨false, true, .notSeeded, (commandBytes i).headD 0⟩ } := by
  obtain ⟨body, hbody, _⟩ := exec_generating (.inr hi)
  rw [hbody, guarded_unseeded hf hs, raise_unseeded hs]

/-- RDB with a byte in BUF: that byte, and CUR one further. -/
theorem exec_rdb_lt (h : Ready s) (hc : s.cur.toNat < 128) : exec .rdb s =
    .next { s with cur := s.cur + 1, resp := s.resp ++ [Memory.lookup s.buf s.cur.toNat] } := by
  rw [exec_rdb, guarded_ready h, emitByte_lt _ hc]

/-- A refill leaves STATUS alone (R110). -/
theorem ready_refill {c : Config} (h : Ready s) : Ready (refill c s) := by
  rw [Ready, refill_status]
  exact h

/-- RDB on an empty buffer is RDB on the refilled buffer. -/
theorem exec_rdb_empty (h : Ready s) (hc : s.cur = 128) : exec .rdb s = exec .rdb (refill Config.engine s) := by
  rw [exec_rdb, exec_rdb, guarded_ready h, guarded_ready (ready_refill h), emitByte_empty _ hc]

/-! ### NXT32 and NXT64 (R117, R118) -/

/-- NXT32 is `fill 4` in its own opcode's checks. -/
theorem exec_nxt32_eq_fill (h : Ready s) : exec .nxt32 s = exec (.fill 4) s := by
  rw [exec_nxt32, exec_fill, guarded_ready h, guarded_ready h]

/-- NXT64 is `fill 8` in its own opcode's checks. -/
theorem exec_nxt64_eq_fill (h : Ready s) : exec .nxt64 s = exec (.fill 8) s := by
  rw [exec_nxt64, exec_fill, guarded_ready h, guarded_ready h]

theorem emitted_fillEnd (c : Config) (n : Nat) (s : State) : emitted s (fillEnd c n s) = streamBytes c s n :=
  List.drop_left

theorem le32Inv_toNat {bs : List Byte} (h : bs.length = 4) : (le32Inv bs).toNat = leNat bs := by
  have hlt := leNat_lt bs
  rw [h] at hlt
  exact (BitVec.toNat_ofNat _ _).trans (Nat.mod_eq_of_lt hlt)

/-- The number of four bytes as a sum. -/
theorem leNat_four (b0 b1 b2 b3 : Byte) : leNat [b0, b1, b2, b3] =
    b0.toNat + 2 ^ 8 * b1.toNat + 2 ^ 16 * b2.toNat + 2 ^ 24 * b3.toNat := by
  simp only [leNat]
  ring

/-- Byte `m` of eight bytes read little-endian. -/
theorem le64Inv_extract {bs : List Byte} (h : bs.length = 8) {m : Nat} (hm : m < 8) :
    (le64Inv bs).extractLsb' (8 * m) 8 = bs.getD m 0 := by
  rw [← le64_getD _ hm, le64_le64Inv h]

theorem nxt64Result_fillEnd (c : Config) (s : State) : nxt64Result s (fillEnd c 8 s) = le64Inv (streamBytes c s 8) := by
  rw [nxt64Result, emitted_fillEnd]

theorem streamBytes_getD (c : Config) (s : State) {n m : Nat} (h : m < n) :
    (streamBytes c s n).getD m 0 = streamByte c s m := by
  simp [streamBytes, h]

/-- With a block in BUF and CUR at the start of its word `j`, the next eight bytes are that word's. -/
theorem streamBytes_word (c : Config) {w : Words16} {j : Nat} (hj : j < 16) (hc : s.cur.toNat = 8 * j)
    (hbuf : ∀ a, a < 128 → Memory.read s.buf a = some ((blockBytes w).getD a 0)) :
    streamBytes c s 8 = le64 ((wordList w).getD j 0) := by
  rw [← List.take_of_length_le (le64_length _).le, ← map_getD_range _ (le64_length _).ge]
  refine List.map_congr_left fun m hm => ?_
  have hm : m < 8 := List.mem_range.1 hm
  have hcell := hbuf (8 * j + m) (by omega)
  rw [Memory.read_eq_some (by omega), Option.some.injEq, blockBytes_getD w hj hm] at hcell
  rw [streamByte_lt c (by simp only [buffered]; omega), hc, hcell, le64_getD _ hm]

/-! ### The transition table (R121) -/

variable {c : Config}

/-- Some number of rows of R121's table leads from `s` to `t`. -/
def Fires (c : Config) (s t : State) : Prop := ∃ n, phaseRun c n s = .next t

theorem Fires.refl (s : State) : Fires c s s := ⟨0, rfl⟩

/-- One row, and the rows after it. -/
theorem Fires.head (h : phaseStep c s = .next t) (k : Fires c t u) : Fires c s u := by
  obtain ⟨n, hn⟩ := k
  exact ⟨n + 1, by rw [phaseRun, h, andThen_next, hn]⟩

theorem Fires.single (h : phaseStep c s = .next t) : Fires c s t := .head h (.refl t)

theorem Fires.trans (h : Fires c s t) (k : Fires c t u) : Fires c s u := by
  obtain ⟨n, hn⟩ := h
  induction n generalizing s with
  | zero =>
    cases hn
    exact k
  | succ n ih =>
    obtain ⟨q, hq, hqt⟩ := andThen_eq_next hn
    exact .head hq (ih hqt)

/-! What the bodies of the three loops do to REM and PHASE -/

theorem emitByte_rem_phase (h : emitByte c s = .next t) : t.rem = s.rem ∧ t.phase = s.phase := by
  have read {q : State} (hc : q.cur.toNat < 128) (h : emitByte c q = .next t) :
      t.rem = q.rem ∧ t.phase = q.phase := by
    rw [emitByte_lt c hc] at h
    cases h
    exact ⟨rfl, rfl⟩
  rcases Nat.lt_trichotomy s.cur.toNat 128 with hc | hc | hc
  · exact read hc h
  · rw [emitByte_empty c (cur_eq_128 hc)] at h
    simpa only [refill_rem, refill_phase] using read (by simp) h
  · rw [emitByte_gt c hc] at h
    cases h

theorem takeByte_rem_phase (h : takeByte c s = .next t) : t.rem = s.rem - 1 ∧ t.phase = s.phase := by
  obtain ⟨q, hq, hn⟩ := andThen_eq_next h
  obtain ⟨hrem, hphase⟩ := emitByte_rem_phase hq
  cases hn
  exact ⟨congrArg (· - 1) hrem, hphase⟩

theorem takeBlock_rem_phase (h : takeBlock c s = .next t) : t.rem = s.rem - 128 ∧ t.phase = s.phase := by
  cases h
  exact ⟨rfl, rfl⟩

theorem toNat_sub_lt {a b : Word} (hb : 0 < b.toNat) (h : b.toNat ≤ a.toNat) : (a - b).toNat < a.toNat := by
  rw [BitVec.toNat_sub_of_le h]
  omega

/-- A loop of FILL held against the rows of its phase `p`: a turn is made only while a byte is owed, it lowers REM and
so the loop ends, it leaves PHASE alone, and it is rows of the table. -/
structure PhaseLoop (c : Config) (p : Phase) (cond : State → Bool) (body : State → Res) : Prop where
  owes : ∀ {q}, cond q = true → 0 < q.rem.toNat
  lowers : ∀ {q r}, cond q = true → body q = .next r → r.rem.toNat < q.rem.toNat
  keeps : ∀ {q r}, body q = .next r → r.phase = q.phase
  rows : ∀ {q r}, q.phase = p → cond q = true → body q = .next r → Fires c q r

/-- Such a loop is rows of its phase, and with REM turns allowed it ends because its condition fails. -/
theorem PhaseLoop.fires {p : Phase} {cond : State → Bool} {body : State → Res} (hl : PhaseLoop c p cond body) {n : Nat}
    (hn : s.rem.toNat ≤ n) (hp : s.phase = p) (h : whileDo cond body n s = .next t) :
    Fires c s t ∧ t.phase = p ∧ cond t = false := by
  induction n generalizing s with
  | zero =>
    cases h
    refine ⟨.refl _, hp, Bool.eq_false_iff.2 fun hc => ?_⟩
    exact absurd (hl.owes hc) (Nat.not_lt.2 hn)
  | succ n ih =>
    rw [whileDo] at h
    split at h
    next hc =>
      obtain ⟨q, hq, hqt⟩ := andThen_eq_next h
      have hlt := hl.lowers hc hq
      obtain ⟨hfires, hrest⟩ := ih (by omega) ((hl.keeps hq).trans hp) hqt
      exact ⟨(hl.rows hp hc hq).trans hfires, hrest⟩
    next hc =>
      cases h
      exact ⟨.refl _, hp, Bool.eq_false_iff.2 hc⟩

/-! The rows of each phase -/

theorem takeByte_lowers (h : 0 < s.rem.toNat) (ht : takeByte c s = .next t) : t.rem.toNat < s.rem.toNat := by
  rw [(takeByte_rem_phase ht).1]
  exact toNat_sub_lt (by decide) h

/-- With a byte in BUF the row that emits is a turn of the loop. -/
theorem emitAtCursor_eq (c : Config) (h : s.cur.toNat < 128) : emitAtCursor s = takeByte c s := by
  rw [emitAtCursor, takeByte, emitByte, readByte_lt c h, readAtCursor_lt h]
  rfl

theorem phaseStep_drain (hp : s.phase = .drain) : phaseStep c s =
    if s.cur.toNat < 128 && 0 < s.rem.toNat then emitAtCursor s else .next (enter .bulk s) := by
  rw [phaseStep, hp]

theorem phaseStep_bulk (hp : s.phase = .bulk) : phaseStep c s =
    if 128 ≤ s.rem.toNat then takeBlock c s else .next (enter .tail s) := by
  rw [phaseStep, hp]

theorem phaseStep_tail (hp : s.phase = .tail) : phaseStep c s =
    if s.rem.toNat = 0 then .next (enter .idle s) else if s.cur = 128 then .next (refill c s) else emitAtCursor s := by
  rw [phaseStep, hp]

theorem drain_phaseLoop (c : Config) :
    PhaseLoop c .drain (fun q => q.cur.toNat < 128 && 0 < q.rem.toNat) (takeByte c) := by
  have parts {q : State} (h : (q.cur.toNat < 128 && 0 < q.rem.toNat) = true) : q.cur.toNat < 128 ∧ 0 < q.rem.toNat := by
    simpa using h
  refine ⟨fun h => (parts h).2, fun h => takeByte_lowers (parts h).2, fun h => (takeByte_rem_phase h).2,
    fun hp h hr => .single ?_⟩
  rw [phaseStep_drain hp, if_pos h, emitAtCursor_eq c (parts h).1, hr]

theorem bulk_phaseLoop (c : Config) : PhaseLoop c .bulk (fun q => 128 ≤ q.rem.toNat) (takeBlock c) where
  owes h := Nat.lt_of_lt_of_le (by decide) (of_decide_eq_true h)
  lowers h hr := by
    rw [(takeBlock_rem_phase hr).1]
    exact toNat_sub_lt (by decide) (of_decide_eq_true h)
  keeps hr := (takeBlock_rem_phase hr).2
  rows hp h hr := .single (by rw [phaseStep_bulk hp, if_pos (of_decide_eq_true h), hr])

/-- A turn of TAIL on an empty buffer is two rows, the refill and the byte. -/
theorem tail_phaseLoop (c : Config) : PhaseLoop c .tail (fun q => 0 < q.rem.toNat) (takeByte c) := by
  have row {q r : State} (hp : q.phase = .tail) (hrem : q.rem.toNat ≠ 0) (hc : q.cur.toNat < 128)
      (hr : takeByte c q = .next r) : Fires c q r := by
    have hne : q.cur ≠ 128 := fun h => absurd hc (by rw [h]; decide)
    exact .single (by rw [phaseStep_tail hp, if_neg hrem, if_neg hne, emitAtCursor_eq c hc, hr])
  refine ⟨of_decide_eq_true, fun h => takeByte_lowers (of_decide_eq_true h), fun h => (takeByte_rem_phase h).2,
    fun {q r} hp h hr => ?_⟩
  have hrem : q.rem.toNat ≠ 0 := Nat.ne_of_gt (of_decide_eq_true h)
  rcases Nat.lt_trichotomy q.cur.toNat 128 with hc | hc | hc
  · exact row hp hrem hc hr
  · have hempty := cur_eq_128 hc
    have hrefill : phaseStep c q = .next (refill c q) := by rw [phaseStep_tail hp, if_neg hrem, if_pos hempty]
    rw [takeByte_empty c hempty] at hr
    exact .head hrefill (row ((refill_phase ..).trans hp) (by rwa [refill_rem]) (by simp) hr)
  · rw [takeByte_gt c hc] at hr
    cases hr

/-- Whenever FILL completes, the rows of the table lead to its end from the acceptance row (R121). -/
theorem fill_fires {len : Word} (h : fill c len s = .next t) : Fires c (acceptFill len s) t := by
  obtain ⟨s1, h1, h⟩ := andThen_eq_next h
  obtain ⟨s2, h2, h⟩ := andThen_eq_next h
  obtain ⟨s3, h3, h⟩ := andThen_eq_next h
  cases h
  obtain ⟨hdrain, hp1, hend1⟩ := (drain_phaseLoop c).fires le_rfl rfl h1
  obtain ⟨hbulk, hp2, hend2⟩ := (bulk_phaseLoop c).fires le_rfl rfl h2
  obtain ⟨htail, hp3, hend3⟩ := (tail_phaseLoop c).fires le_rfl rfl h3
  have toBulk : phaseStep c s1 = .next (enter .bulk s1) := by
    rw [phaseStep_drain hp1, if_neg (Bool.eq_false_iff.1 hend1)]
  have toTail : phaseStep c s2 = .next (enter .tail s2) := by
    rw [phaseStep_bulk hp2, if_neg (of_decide_eq_false hend2)]
  have toIdle : phaseStep c s3 = .next (enter .idle s3) := by
    rw [phaseStep_tail hp3, if_pos (Nat.eq_zero_of_not_pos (of_decide_eq_false hend3))]
  exact hdrain.trans (.head toBulk (hbulk.trans (.head toTail (htail.trans (.single toIdle)))))

end

/-! ### The statements of the family -/

/-- Settles O23: the end state of FILL, field by field. -/
theorem fillEmitsExactlyLen : Obligations.FillEmitsExactlyLen := by
  refine fun s len h hc hw => ⟨_, exec_fill_ready h hc hw len, rfl, ?_, rfl, fillEnd_cur _ _ hc,
    fillEnd_sameBuf _, fillEnd_read _ hw, rfl, rfl, rfl, rfl, rfl, rfl⟩
  rw [(tookBytes_fillEnd Config.engine len.toNat hc hw).resp, List.length_append, streamBytes_length]

/-- Settles O24: `fill 0` writes REM and PHASE only, and PHASE was IDLE. -/
theorem fillZeroIsNoOperation : Obligations.FillZeroIsNoOperation := by
  intro s h hp
  rw [exec_fill, guarded_ready h, fill_zero, ← hp]

/-- Settles O28: the two fills take two stretches, which are one. -/
theorem fillSplitsForEveryConfig : Obligations.FillSplitsForEveryConfig := by
  intro c s m n hlt hc hw
  have hm := tookBytes_fillEnd c m.toNat hc hw
  have hc' : (fillEnd c m.toNat s).cur.toNat ≤ 128 := hm.cur ▸ cursorAfter_le _ hc
  have hw' := fillEnd_wf c m.toNat hw
  have hsplit := hm.trans (tookBytes_fillEnd c n.toNat hc' hw')
  have hwhole := tookBytes_fillEnd c (m.toNat + n.toNat) hc hw
  have hfill := fill_eq c (m + n) s hc hw
  rw [BitVec.toNat_add_of_lt hlt] at hfill
  exact ⟨_, _, _, fill_eq c m s hc hw, fill_eq c n _ hc' hw', hfill, hsplit.resp_eq hwhole, hsplit.sameLive hwhole⟩

/-- Settles O27: both runs take the same stretch of one stream. -/
theorem chunkingInvariance : Obligations.ChunkingInvariance := by
  intro s is js h hinv his hjs htotal
  have hs : Serves s := ⟨h, hinv.curLe, hinv.bufWf, hinv.phaseIdle⟩
  obtain ⟨t, ht, hst⟩ := execAll_byteStream is his hs
  obtain ⟨u, hu, hsu⟩ := execAll_byteStream js hjs hs
  rw [← htotal] at hsu
  exact ⟨t, u, ht, hu, hst.resp_eq hsu, hst.sameLive hsu⟩

/-- Settles O25: every byte-stream command ends as FILL of its bytes does, but for REM. -/
theorem commandsConsumeTheStream : Obligations.CommandsConsumeTheStream := by
  intro i s hi h hc hw hp
  have ht := tookBytes_fillEnd Config.engine (bytesTaken i) hc hw
  exact ⟨_, byteStream_end hi h hc hw hp, ht.resp, ht.stream, ht.cur, ht.gen, fillEnd_sameBuf _, fillEnd_read _ hw, rfl,
    rfl, hp.symm, rfl, rfl, rfl⟩

/-- Settles O26: SEED empties the buffer and sets the counter, and the commands after it take one stretch. -/
theorem positionLaw : Obligations.PositionLaw := by
  intro s a b d e is hf hw hp hi
  obtain ⟨t, ht, hst⟩ := execAll_byteStream is hi (serves_seed Config.engine a b d e hf hw hp)
  have hcur : (seed Config.engine a b d e s).cur = 128 := seed_cur ..
  have hgen := hst.gen
  rw [roundsFor_empty hcur] at hgen
  refine ⟨_, t, exec_seed_unfaulted hf a b d e, ht, ?_, ?_, hst.cur.trans (cursorAfter_empty hcur _), fun i => ?_⟩
  · rw [hst.resp, seed_resp]
  · rw [hgen]
    exact ⟨rfl, rfl, rfl⟩
  · rw [hgen]
    exact genAfter_seed_ctr a b d e s _ i

/-- Settles O30: both end as FILL of one byte does. -/
theorem rdbIsFillOne : Obligations.RdbIsFillOne := fun _ h hc hw hp =>
  ⟨_, byteStream_end (i := .rdb) rfl h hc hw hp, exec_fill_ready h hc hw 1⟩

/-- Settles O21: RDB reads at the cursor, after a refill if the buffer is empty. -/
theorem rdbRefillsLazily : Obligations.RdbRefillsLazily := by
  refine fun s hw => ⟨fun h hc => ?_, fun h hc => ⟨_, exec_rdb_lt h hc, ?_⟩, exec_byteStream_unseeded rfl,
    decodeCommand_commandBytes (i := .rdb) rfl⟩
  · have hbyte : Memory.lookup (refill Config.engine s).buf (refill Config.engine s).cur.toNat =
        (blockOf Config.engine s.gen).getD 0 0 := by
      rw [refill_cur]
      exact refill_lookup Config.engine hw (a := 0) (by decide)
    rw [exec_rdb_empty h hc]
    refine ⟨_, exec_rdb_lt (ready_refill h) (by simp), ?_⟩
    rw [hbyte]
    exact ⟨rfl, rfl, roundUnpack_regs .., fun a ha => by
      rw [Memory.read_eq_some ha, refill_lookup Config.engine hw ha], rfl, rfl, rfl, rfl, rfl, rfl⟩
  · have hcur : (s.cur + 1).toNat = s.cur.toNat + 1 := by bv_omega
    exact ⟨hcur, rfl, rfl, fun _ => rfl, rfl, rfl, rfl, rfl, rfl, rfl⟩

/-- Settles O31: NXT32 runs `fill 4`, and its result is the four bytes that emits. -/
theorem nxt32ReadsFourBytes : Obligations.Nxt32ReadsFourBytes := by
  refine fun s => ⟨fun h hc hw => ?_, exec_byteStream_unseeded rfl, decodeCommand_commandBytes (i := .nxt32) rfl⟩
  have hfill : exec (.fill 4) s = .next (fillEnd Config.engine 4 s) := exec_fill_ready h hc hw 4
  refine ⟨_, (exec_nxt32_eq_fill h).trans hfill, hfill, rfl, ?_⟩
  rw [nxt32Result, emitted_fillEnd, le32Inv_toNat (streamBytes_length ..)]
  exact leNat_four ..

/-- Settles O32: NXT64 runs `fill 8`; its result is the eight bytes that emits, which an aligned cursor makes a word. -/
theorem nxt64ReadsEightBytes : Obligations.Nxt64ReadsEightBytes := by
  refine fun s => ⟨fun h hc hw => ?_, exec_byteStream_unseeded rfl, fun w j h hw hj hc hbuf => ?_,
    decodeCommand_commandBytes (i := .nxt64) rfl⟩
  · have hfill : exec (.fill 8) s = .next (fillEnd Config.engine 8 s) := exec_fill_ready h hc hw 8
    refine ⟨_, (exec_nxt64_eq_fill h).trans hfill, hfill, rfl, fun m hm => ?_⟩
    rw [nxt64Result_fillEnd, le64Inv_extract (streamBytes_length ..) hm, streamBytes_getD _ _ hm]
  · have hle : 8 ≤ buffered s := by simp only [buffered]; omega
    have ht := tookBytes_fillEnd Config.engine 8 (s := s) (by omega) hw
    have hgen := ht.gen
    rw [roundsFor_of_le hle, genAfter_zero] at hgen
    have hfill : exec (.fill 8) s = .next (fillEnd Config.engine 8 s) := exec_fill_ready h (by omega) hw 8
    refine ⟨_, (exec_nxt64_eq_fill h).trans hfill, ?_, ht.cur.trans ?_, hgen ▸ ⟨rfl, rfl, rfl⟩⟩
    · rw [nxt64Result_fillEnd, streamBytes_word _ hj hc hbuf, le64Inv_le64]
    · rw [cursorAfter_of_le hle, hc]

/-- Settles O29: each loop of FILL is rows of its phase, and the row that leaves a phase fires where the loop ends. -/
theorem phaseTableRefinesFill : Obligations.PhaseTableRefinesFill := by
  intro c s len hc hw
  have hfill := fill_eq c len s hc hw
  obtain ⟨n, hn⟩ := fill_fires hfill
  exact ⟨n, _, hn, hfill, rfl⟩

end Sys2Proof.Machine

/-! Exceptions (spec/60_exceptions.md): the two faults a command can enter, what a faulted engine does, and why a step
does not happen. -/

namespace Sys2Proof.Machine

section
variable {s : State}

/-! ### NOT_SEEDED (R132) -/

/-- A generating command on an unfaulted engine that is not seeded is fault entry with its own opcode byte, and nothing
else. -/
theorem exec_generating_unseeded {i : Instr} (hi : i = .rndu ∨ isByteStream i = true) (hf : s.status.fault = false)
    (hs : s.status.seeded = false) : exec i s = .next (raise .notSeeded ((commandBytes i).headD 0) s) := by
  obtain ⟨body, hbody, _⟩ := exec_generating hi
  rw [hbody, guarded_unseeded hf hs]

/-! ### ILLEGAL_OPCODE (R131) -/

theorem illegalOpcode_unfaulted (op : Byte) (hf : s.status.fault = false) :
    illegalOpcode op s = raise .illegalOpcode op s := by
  simp [illegalOpcode, hf]

theorem illegalOpcode_faulted (op : Byte) (hf : s.status.fault = true) : illegalOpcode op s = s :=
  if_pos hf

/-- The step of an illegal opcode byte: it alone is consumed, then fault entry (R56, R131). -/
theorem step_illegal {op : Byte} (h : TakesCommands s) (hd : decodeCommand s.cmd = .illegal op) :
    step s = .next (illegalOpcode op (consume 1 s)) := by
  rw [step, fetch_takes h, fetchCommand, hd]

/-! ### A faulted engine (R137) -/

/-- While FAULT = 1 a command does nothing, whether it generates or not. -/
theorem exec_command_faulted {i : Instr} (hi : i.isCommand = true) (hf : s.status.fault = true) :
    exec i s = .next s := by
  rcases instr_kind_cases i with ⟨a, b, d, e, rfl⟩ | hg | ha
  · exact exec_seed_faulted hf a b d e
  · obtain ⟨body, hbody, _⟩ := exec_generating hg
    rw [hbody, guarded_faulted hf]
  · rw [hi] at ha
    cases ha

/-! ### Steps that do not happen (R57, R59, R139, R150) -/

/-- From a state that meets the invariants a step completes, or is refused for one of three reasons. -/
theorem step_completes_or_refused (h : Inv s) :
    (∃ t, step s = .next t) ∨ ∃ r, step s = .refused r ∧
      ((s.rst = true ∧ r = .heldInReset) ∨
        (TakesCommands s ∧ decodeCommand s.cmd = .wait ∧ r = .awaitingCommand) ∨
        ∃ ctl, s.alu.req = some ctl ∧ 5 ≤ (ctl.extractLsb' 0 3).toNat ∧
          r = .reservedAluOp (ctl.extractLsb' 0 3)) := by
  rcases step_cases s with ⟨i, q, e, hq⟩ | ⟨op, q, e, _⟩ | ⟨hr, e⟩ | ⟨hs, hd, e⟩ | ⟨ctl, _, ha, h5, e⟩
  · have hinv : Inv q := hq ▸ h.of_same rfl rfl rfl rfl
    obtain ⟨t, ht, _⟩ := exec_inv hinv i
    exact .inl ⟨t, e.trans ht⟩
  · exact .inl ⟨_, e⟩
  · exact .inr ⟨_, e, .inl ⟨hr, rfl⟩⟩
  · exact .inr ⟨_, e, .inr (.inl ⟨hs, hd, rfl⟩)⟩
  · exact .inr ⟨_, e, .inr (.inr ⟨ctl, ha, h5, rfl⟩)⟩

end

/-- Settles O37: of the ways STATUS changes, a step's need FAULT clear, and the release of reset is left. -/
theorem onlyResetClearsAFault : Obligations.OnlyResetClearsAFault := by
  intro e s t hf h
  rcases statusChangesOnlyAsSaid e s t h with hsame | ⟨_, _, hclear, _⟩ | hrelease
  · exact .inl hsame
  · rw [hf] at hclear
    cases hclear
  · exact .inr hrelease

/-- Settles O50: an instruction completes from such a state, so a step stops only where the fetch does. -/
theorem noCommandFails : Obligations.NoCommandFails := by
  intro s h
  rcases step_completes_or_refused h with ⟨t, ht⟩ | ⟨r, hr, hwhy⟩
  · rw [ht]
    exact ⟨nofun, nofun⟩
  · rw [hr]
    refine ⟨nofun, fun r' heq => ?_⟩
    cases heq
    exact hwhy

/-- Settles O34: SEED needs no seed, and the five others are fault entry with their opcode byte. -/
theorem notSeededIsPrecise : Obligations.NotSeededIsPrecise := by
  constructor
  · intro s a b d e hf hs
    refine ⟨_, exec_seed_unfaulted hf a b d e, ?_⟩
    rw [seed_status, ← hf]
  · rintro i op s hf hs (⟨rfl, rfl⟩ | ⟨rfl, rfl⟩ | ⟨⟨len, rfl⟩, rfl⟩ | ⟨rfl, rfl⟩ | ⟨rfl, rfl⟩)
    · exact exec_generating_unseeded (.inl rfl) hf hs
    all_goals exact exec_generating_unseeded (.inr rfl) hf hs

/-- Settles O35: the byte is consumed alone, and on an unfaulted engine what is left is fault entry. -/
theorem illegalOpcodeIsPrecise : Obligations.IllegalOpcodeIsPrecise := by
  intro s op rest h hf hc hop
  have hd : decodeCommand s.cmd = .illegal op := by rw [hc, decodeCommand_illegal hop]
  have hrest : s.cmd.drop 1 = rest := by rw [hc, List.drop_one, List.tail_cons]
  rw [step_illegal h hd, illegalOpcode_unfaulted (s := consume 1 s) op hf, raise, consume, hrest]

/-- Settles O36: a complete command at the head of the channel is a command's encoding or an illegal opcode byte, and
while FAULT = 1 each is only consumed. -/
theorem faultedEngineDiscards : Obligations.FaultedEngineDiscards := by
  intro s op rest h hf hc hlen
  have hhead : s.cmd.headD 0 = op := by rw [hc, List.headD_cons]
  rcases channel_cases s.cmd with hshort | ⟨i, tl, hi, hcmd⟩ | ⟨op', tl, hop, hcmd⟩
  · rw [hhead] at hshort
    exact absurd hlen (Nat.not_le.2 hshort)
  · have hn : (commandBytes i).length = commandLength op := by rw [commandBytes_length hi tl, ← hcmd, hhead]
    have hd : decodeCommand s.cmd = .command i (commandLength op) := by rw [hcmd, decodeCommand_commandBytes hi, hn]
    exact (step_command h hd).trans (exec_command_faulted hi hf)
  · cases hc.symm.trans hcmd
    have hd : decodeCommand s.cmd = .illegal op := by rw [hcmd, decodeCommand_illegal hop]
    rw [step_illegal h hd, illegalOpcode_faulted (s := consume 1 s) op hf, commandLength_illegal hop, consume]

end Sys2Proof.Machine

/-! The worked encodings (spec/30_encoding.md section 9): each word is an instance of what the decoders answer. -/

namespace Sys2Proof.Machine

/-- Settles O44: two of the byte strings begin with a command's encoding, one is an illegal opcode byte, one is shorter
than its command; the two control words are the round generator's. -/
theorem workedEncodingsDecode : Obligations.WorkedEncodingsDecode := by
  have hfill : commandBytes (.fill 130) ++ [] = [0x04, 0x82, 0, 0, 0, 0, 0, 0, 0] := by decide
  have hnxt32 : commandBytes .nxt32 ++ [0x06, 0x07] = [0x05, 0x06, 0x07] := rfl
  refine ⟨?fill, ?nxt32, ?illegal, ?incomplete, decodeAlu_shiftOddWord, decodeAlu_permBWord⟩
  case fill => exact hfill ▸ decodeCommand_commandBytes (i := .fill 130) rfl []
  case nxt32 => exact hnxt32 ▸ decodeCommand_commandBytes (i := .nxt32) rfl [0x06, 0x07]
  case illegal => exact decodeCommand_illegal (.inr (by decide)) []
  case incomplete => exact decodeCommand_incomplete (by decide)

end Sys2Proof.Machine
